-- ==== Sys2Proof/Word.lean ====
section
/-! DEFINITION. The widths of the machine's words (00_scope.md R7, R9, R10, R11). -/

namespace Sys2Proof

/-- An 8-bit quantity: a general register, a timer, a byte of memory, the literal `nn`. -/
abbrev Byte := BitVec 8

/-- A 16-bit quantity: I, PC, a call-stack entry, an instruction word (R9, R23, R24, R27, R80). -/
abbrev Word := BitVec 16

/-- A 4-bit quantity (R17): the opcode nibble and the fields x, y, n of a word (R81). -/
abbrev Nibble := BitVec 4

/-- The 12-bit address or literal `nnn` (R81). -/
abbrev Addr := BitVec 12

/-- The index of a general register, 0 to 15 (R20): the bound that R22 asks to be validated is
carried by the type wherever an instruction names a register. -/
abbrev Reg := Fin 16

/-- The index of VF, the flag register (R12, R36). -/
abbrev Reg.vf : Reg := 15

end Sys2Proof
end

