-- ==== Sys2Proof/Config.lean ====
section
/-! DEFINITION. The configuration parameters of 00_scope.md R8 and the values the spec leaves free.
A configuration is fixed for a run and invisible to programs (10_state.md R35). -/

namespace Sys2Proof

/-- SHIFT_SRC: the register SHR and SHL shift (R206, R208; D14). -/
inductive ShiftSrc where
  | vy
  | vx
deriving DecidableEq, Repr

/-- JUMP_OFFSET_REG: the offset register of Bnnn (R168; D15). -/
inductive JumpOffsetReg where
  | v0
  | vxOfNnn
deriving DecidableEq, Repr

/-- KEY_OOB: what a key lookup with a value of 16 or more does (R262; D16). -/
inductive KeyOob where
  | fault
  | notPressed
deriving DecidableEq, Repr

/-- REG_RESET: what V0..VF and I hold after construction (R40; D7). -/
inductive RegReset where
  | zero
  | unspecified
deriving DecidableEq, Repr

/-- The parameters of R8, one field each. -/
structure Config where
  shiftSrc : ShiftSrc
  jumpOffsetReg : JumpOffsetReg
  keyOob : KeyOob
  /-- RND_AND_NN: whether RND masks its draw with nn (R209; D17). -/
  rndAndNn : Bool
  /-- FONT_BASE (R60, R237; D18). -/
  fontBase : Word
  /-- STACK_LIMIT: `none` is the unbounded stack (R27, R28; D19). -/
  stackLimit : Option Nat
  /-- TIMER_PERIOD: steps per timer tick (R126; D20). -/
  timerPeriod : Nat
  regReset : RegReset
deriving DecidableEq, Repr

/-- FREE VALUE (log 2). FONT_BASE of the machine after reset: the spec leaves it OPEN and gives only
FONT_BASE + 80 <= 4096 (R8, D18), which the type states. -/
opaque Config.hostFontBase : Fin 4017

/-- FREE VALUE (log 2). CPS, the host's configured steps per second (R126, D20); the spec gives no value. -/
opaque Config.hostCyclesPerSecond : Nat

/-- FREE VALUE (log 3). What register r holds after construction when REG_RESET = UNSPECIFIED (R40, 93 I10). -/
opaque Config.powerOnV : Reg → Byte

/-- FREE VALUE (log 3). What I holds after construction when REG_RESET = UNSPECIFIED (R40, 93 I10). -/
opaque Config.powerOnI : Word

/-- FREE VALUE (log 6). The k-th byte the rnd port offers: an 8-bit value with no law (R15, R113). -/
opaque Config.freeDraw : Nat → Byte

/-- The default of every parameter of R8; FONT_BASE and CPS, which have no default, are free (log 2). -/
def Config.standard : Config where
  shiftSrc := .vy
  jumpOffsetReg := .v0
  keyOob := .fault
  rndAndNn := false
  fontBase := BitVec.ofNat 16 Config.hostFontBase.val
  stackLimit := none
  timerPeriod := max 1 (Config.hostCyclesPerSecond / 60)
  regReset := .zero

end Sys2Proof
end

