-- ==== Sys2Proof/Syntax.lean ====
section
/-! DEFINITION. The instruction set: the fields of a word (30_encoding.md R81) and one constructor per row of
spec/opcode_table.json (R92, in its order). -/

namespace Sys2Proof

/-- The fields of the one instruction format (R81), as the decoder extracts them from every word (R82). -/
structure Fields where
  opcode : Nibble
  x : Nibble
  y : Nibble
  n : Nibble
  nn : Byte
  nnn : Addr
deriving DecidableEq, Repr

/-- The 34 instructions of R92. Operands are in the order of the mnemonic (R91). -/
inductive Instr where
  /-- 00E0, CLS (R140). -/
  | cls
  /-- 00EE, RET (R160). -/
  | ret
  /-- 1nnn, JP nnn (R161). -/
  | jp (nnn : Addr)
  /-- 2nnn, CALL nnn (R162). -/
  | call (nnn : Addr)
  /-- 3xnn, SE Vx, nn (R164). -/
  | seImm (x : Reg) (nn : Byte)
  /-- 4xnn, SNE Vx, nn (R165). -/
  | sneImm (x : Reg) (nn : Byte)
  /-- 5xy0, SE Vx, Vy (R166). -/
  | seReg (x y : Reg)
  /-- 6xnn, LD Vx, nn (R190). -/
  | ldImm (x : Reg) (nn : Byte)
  /-- 7xnn, ADD Vx, nn (R191). -/
  | addImm (x : Reg) (nn : Byte)
  /-- 8xy0, LD Vx, Vy (R200). -/
  | ldReg (x y : Reg)
  /-- 8xy1, OR Vx, Vy (R201). -/
  | orReg (x y : Reg)
  /-- 8xy2, AND Vx, Vy (R202). -/
  | andReg (x y : Reg)
  /-- 8xy3, XOR Vx, Vy (R203). -/
  | xorReg (x y : Reg)
  /-- 8xy4, ADD Vx, Vy (R204). -/
  | addReg (x y : Reg)
  /-- 8xy5, SUB Vx, Vy (R205). -/
  | subReg (x y : Reg)
  /-- 8xy6, SHR Vx, Vy (R206). -/
  | shr (x y : Reg)
  /-- 8xy7, SUBN Vx, Vy (R207). -/
  | subn (x y : Reg)
  /-- 8xyE, SHL Vx, Vy (R208). -/
  | shl (x y : Reg)
  /-- 9xy0, SNE Vx, Vy (R167). -/
  | sneReg (x y : Reg)
  /-- Annn, LD I, nnn (R235). -/
  | ldI (nnn : Addr)
  /-- Bnnn, JP V0, nnn (R168). -/
  | jpV0 (nnn : Addr)
  /-- Cxnn, RND Vx, nn (R209). -/
  | rnd (x : Reg) (nn : Byte)
  /-- Dxyn, DRW Vx, Vy, n (R141). -/
  | drw (x y : Reg) (n : Nibble)
  /-- Ex9E, SKP Vx (R260). -/
  | skp (x : Reg)
  /-- ExA1, SKNP Vx (R261). -/
  | sknp (x : Reg)
  /-- Fx07, LD Vx, DT (R263). -/
  | ldVxDt (x : Reg)
  /-- Fx0A, LD Vx, K (R266). -/
  | ldVxK (x : Reg)
  /-- Fx15, LD DT, Vx (R264). -/
  | ldDtVx (x : Reg)
  /-- Fx18, LD ST, Vx (R265). -/
  | ldStVx (x : Reg)
  /-- Fx1E, ADD I, Vx (R236). -/
  | addI (x : Reg)
  /-- Fx29, LD F, Vx (R237). -/
  | ldF (x : Reg)
  /-- Fx33, LD B, Vx (R238). -/
  | ldB (x : Reg)
  /-- Fx55, LD [I], Vx (R239). -/
  | storeRegs (x : Reg)
  /-- Fx65, LD Vx, [I] (R240). -/
  | loadRegs (x : Reg)
deriving DecidableEq, Repr

end Sys2Proof
end

