-- ==== Sys2Proof/WellFormed.lean ====
section
/-! DEFINITION. The checks on terms that a type does not carry already. Every term of `Instr` is well formed: its
registers are `Fin 16` (R20, R22) and its literals have the width of their field (R81, R83), so there is no ill-formed
instruction to refuse. What can be ill formed is a record of fields whose overlapping parts disagree (R81) and a
configuration outside the ranges of R8. -/

namespace Sys2Proof

/-- "The fields overlap (nn is y:n, nnn is x:y:n)" (R81). -/
def Fields.wellFormed (f : Fields) : Bool :=
  decide (f.nn = f.y ++ f.n) && decide (f.nnn = f.x ++ f.nn)

/-- The font's 80 bytes lie in memory (R8, R60, D18). -/
def Config.fontFits (c : Config) : Bool := decide (c.fontBase.toNat + 80 ≤ 4096)

/-- TIMER_PERIOD is a positive integer (R8, D20). -/
def Config.periodPositive (c : Config) : Bool := decide (1 ≤ c.timerPeriod)

/-- STACK_LIMIT is none or a positive count (R8, D19). -/
def Config.limitPositive (c : Config) : Bool :=
  match c.stackLimit with
  | none => true
  | some d => decide (1 ≤ d)

/-- The configuration lies in the ranges of R8. -/
def Config.wellFormed (c : Config) : Bool :=
  c.fontFits && c.periodPositive && c.limitPositive

end Sys2Proof
end

