-- ==== Sys2Proof/Decode.lean ====
section
/-! DEFINITION. Decoding and encoding (30_encoding.md). The decoder is the total field extractor `parse` (R82) followed
by the selection of the opcode map (R85, R92); a word that matches no pattern is rejected by name (R87). -/

namespace Sys2Proof

/-- Why bytes are no instruction. -/
inductive DecodeError where
  /-- The word matches no pattern of R92 (R87). -/
  | unknownInstruction (w : Word)
  /-- Fewer than the two bytes every instruction has (R80). -/
  | truncated
deriving DecidableEq, Repr

/-- "hi:lo for two bytes gives the 16-bit value hi*256 + lo" (R11, R58). -/
def joinBytes (hi lo : Byte) : Word := hi ++ lo

/-- Bits 15..8 of a word: the byte at the lower address (R58). -/
def hiByte (w : Word) : Byte := w.extractLsb' 8 8

/-- Bits 7..0 of a word: the byte at the higher address (R58). -/
def loByte (w : Word) : Byte := w.extractLsb' 0 8

/-- The register a 4-bit field names (R81, R84). -/
def regOf (b : Nibble) : Reg := b.toFin

/-- The 4-bit field that names a register. -/
def fieldOf (r : Reg) : Nibble := BitVec.ofFin r

/-- The total field extractor (R81, R82): it has no error path. -/
def parse (hi lo : Byte) : Fields where
  opcode := hi.extractLsb' 4 4
  x := hi.extractLsb' 0 4
  y := lo.extractLsb' 4 4
  n := lo.extractLsb' 0 4
  nn := lo
  nnn := hi.extractLsb' 0 4 ++ lo

/-- The opcode map (R92). A nibble a pattern fixes must match exactly (R85); `none` is "unknown" (R87). -/
def select (f : Fields) : Option Instr :=
  match f.opcode with
  | 0x0#4 =>
    match f.nnn with
    | 0x0E0#12 => some .cls
    | 0x0EE#12 => some .ret
    | _ => none
  | 0x1#4 => some (.jp f.nnn)
  | 0x2#4 => some (.call f.nnn)
  | 0x3#4 => some (.seImm (regOf f.x) f.nn)
  | 0x4#4 => some (.sneImm (regOf f.x) f.nn)
  | 0x5#4 =>
    match f.n with
    | 0x0#4 => some (.seReg (regOf f.x) (regOf f.y))
    | _ => none
  | 0x6#4 => some (.ldImm (regOf f.x) f.nn)
  | 0x7#4 => some (.addImm (regOf f.x) f.nn)
  | 0x8#4 =>
    match f.n with
    | 0x0#4 => some (.ldReg (regOf f.x) (regOf f.y))
    | 0x1#4 => some (.orReg (regOf f.x) (regOf f.y))
    | 0x2#4 => some (.andReg (regOf f.x) (regOf f.y))
    | 0x3#4 => some (.xorReg (regOf f.x) (regOf f.y))
    | 0x4#4 => some (.addReg (regOf f.x) (regOf f.y))
    | 0x5#4 => some (.subReg (regOf f.x) (regOf f.y))
    | 0x6#4 => some (.shr (regOf f.x) (regOf f.y))
    | 0x7#4 => some (.subn (regOf f.x) (regOf f.y))
    | 0xE#4 => some (.shl (regOf f.x) (regOf f.y))
    | _ => none
  | 0x9#4 =>
    match f.n with
    | 0x0#4 => some (.sneReg (regOf f.x) (regOf f.y))
    | _ => none
  | 0xA#4 => some (.ldI f.nnn)
  | 0xB#4 => some (.jpV0 f.nnn)
  | 0xC#4 => some (.rnd (regOf f.x) f.nn)
  | 0xD#4 => some (.drw (regOf f.x) (regOf f.y) f.n)
  | 0xE#4 =>
    match f.nn with
    | 0x9E#8 => some (.skp (regOf f.x))
    | 0xA1#8 => some (.sknp (regOf f.x))
    | _ => none
  | 0xF#4 =>
    match f.nn with
    | 0x07#8 => some (.ldVxDt (regOf f.x))
    | 0x0A#8 => some (.ldVxK (regOf f.x))
    | 0x15#8 => some (.ldDtVx (regOf f.x))
    | 0x18#8 => some (.ldStVx (regOf f.x))
    | 0x1E#8 => some (.addI (regOf f.x))
    | 0x29#8 => some (.ldF (regOf f.x))
    | 0x33#8 => some (.ldB (regOf f.x))
    | 0x55#8 => some (.storeRegs (regOf f.x))
    | 0x65#8 => some (.loadRegs (regOf f.x))
    | _ => none
  | _ => none

/-- Decode and select (R122, R124): an unmatched word is rejected by name with the word itself (R87, R300). -/
def decodeWord (w : Word) : Except DecodeError Instr :=
  match select (parse (hiByte w) (loByte w)) with
  | some i => .ok i
  | none => .error (.unknownInstruction w)

/-- Decoding from any bytes: the instruction of the first two (big-endian, R58, R80) and the bytes after it. -/
def decode : List Byte → Except DecodeError (Instr × List Byte)
  | hi :: lo :: rest =>
    match decodeWord (joinBytes hi lo) with
    | .ok i => .ok (i, rest)
    | .error e => .error e
  | _ => .error .truncated

/-- The word of an instruction: the bit patterns of R92, field by field. -/
def encode : Instr → Word
  | .cls => 0x00E0#16
  | .ret => 0x00EE#16
  | .jp nnn => 0x1#4 ++ nnn
  | .call nnn => 0x2#4 ++ nnn
  | .seImm x nn => 0x3#4 ++ fieldOf x ++ nn
  | .sneImm x nn => 0x4#4 ++ fieldOf x ++ nn
  | .seReg x y => 0x5#4 ++ fieldOf x ++ fieldOf y ++ 0x0#4
  | .ldImm x nn => 0x6#4 ++ fieldOf x ++ nn
  | .addImm x nn => 0x7#4 ++ fieldOf x ++ nn
  | .ldReg x y => 0x8#4 ++ fieldOf x ++ fieldOf y ++ 0x0#4
  | .orReg x y => 0x8#4 ++ fieldOf x ++ fieldOf y ++ 0x1#4
  | .andReg x y => 0x8#4 ++ fieldOf x ++ fieldOf y ++ 0x2#4
  | .xorReg x y => 0x8#4 ++ fieldOf x ++ fieldOf y ++ 0x3#4
  | .addReg x y => 0x8#4 ++ fieldOf x ++ fieldOf y ++ 0x4#4
  | .subReg x y => 0x8#4 ++ fieldOf x ++ fieldOf y ++ 0x5#4
  | .shr x y => 0x8#4 ++ fieldOf x ++ fieldOf y ++ 0x6#4
  | .subn x y => 0x8#4 ++ fieldOf x ++ fieldOf y ++ 0x7#4
  | .shl x y => 0x8#4 ++ fieldOf x ++ fieldOf y ++ 0xE#4
  | .sneReg x y => 0x9#4 ++ fieldOf x ++ fieldOf y ++ 0x0#4
  | .ldI nnn => 0xA#4 ++ nnn
  | .jpV0 nnn => 0xB#4 ++ nnn
  | .rnd x nn => 0xC#4 ++ fieldOf x ++ nn
  | .drw x y n => 0xD#4 ++ fieldOf x ++ fieldOf y ++ n
  | .skp x => 0xE#4 ++ fieldOf x ++ 0x9E#8
  | .sknp x => 0xE#4 ++ fieldOf x ++ 0xA1#8
  | .ldVxDt x => 0xF#4 ++ fieldOf x ++ 0x07#8
  | .ldVxK x => 0xF#4 ++ fieldOf x ++ 0x0A#8
  | .ldDtVx x => 0xF#4 ++ fieldOf x ++ 0x15#8
  | .ldStVx x => 0xF#4 ++ fieldOf x ++ 0x18#8
  | .addI x => 0xF#4 ++ fieldOf x ++ 0x1E#8
  | .ldF x => 0xF#4 ++ fieldOf x ++ 0x29#8
  | .ldB x => 0xF#4 ++ fieldOf x ++ 0x33#8
  | .storeRegs x => 0xF#4 ++ fieldOf x ++ 0x55#8
  | .loadRegs x => 0xF#4 ++ fieldOf x ++ 0x65#8

/-- The instruction's two bytes as memory holds them, high byte first (R58, R80). -/
def encodeBytes (i : Instr) : List Byte := [hiByte (encode i), loByte (encode i)]

/-- The word of a row of spec/opcode_table.json: its low `nbits` bits, every higher bit 0. -/
def tableWord (nbits w : Nat) : Word := BitVec.ofNat 16 (w % 2 ^ nbits)

/-- The instruction the decoder reads from a word numbered as spec/opcode_table.json numbers it: its bytes laid
out as memory holds them (R58), then decoded. -/
def decodeTableWord (nbits w : Nat) : Option Instr :=
  match decode [hiByte (tableWord nbits w), loByte (tableWord nbits w)] with
  | .ok (i, _) => some i
  | .error _ => none

end Sys2Proof
end

