-- ==== Sys2Proof/Machine/State.lean ====
section
/-! DEFINITION. The machine's state as plain data (10_state.md), the ports of the block that a step reads or writes
(40_cycle.md R110), the reasons a step can stop (60_exceptions.md R300), and construction (10_state.md R40). -/

namespace Sys2Proof.Machine

/-- Mem (R31, R50): the listed bytes, by address. An unlisted address reads as `Memory.unlisted`. -/
abbrev Memory := List Host.Cell

/-- Mem is "created zero-filled" (R31, R40): what an address no write has listed reads as. -/
abbrev Memory.unlisted : Byte := 0

/-- The one canonical form: addresses strictly rising and inside the 4096-byte space (R50), and no entry equal to
what an unlisted address reads as. -/
abbrev Memory.wf (m : Memory) : Prop :=
  m.Pairwise (fun a b => a.1 < b.1) ∧ ∀ c ∈ m, c.1 < 4096 ∧ c.2 ≠ Memory.unlisted

/-- FB (R32): 64 x 32 boolean cells, kept as 32 rows of 64 columns (the storage order is not architectural). -/
structure FrameBuffer where
  rows : Vector (Vector Bool 64) 32
deriving DecidableEq, Repr

/-- The frame buffer with every cell false (R40, R140). -/
def FrameBuffer.blank : FrameBuffer := ⟨Vector.replicate 32 (Vector.replicate 64 false)⟩

/-- Key (R34): one boolean per hexadecimal key, true meaning pressed. -/
abbrev KeyState := Vector Bool 16

/-- The renderer's error: the core passes it on unchanged and never looks inside (R114, R300; log 7). -/
structure RenderErr where
  code : Nat
deriving DecidableEq, Repr

/-- The renderer's answer to a frame hand-off (R110, R114). -/
inductive RenderAnswer where
  | ok
  | error (e : RenderErr)
deriving DecidableEq, Repr

/-- What an InvalidState fault records (R300). -/
inductive InvalidStateInfo where
  /-- RET on an empty call stack (R160). -/
  | emptyStack
  /-- CALL with STACK_LIMIT entries on the stack (R28, R162). -/
  | stackFull
deriving DecidableEq, Repr

/-- The four fault kinds with the info each records (R300). Every one is the spec's own fault, so each is safe: the
machine stops where the spec says it stops. -/
inductive Fault where
  /-- OutOfBounds: the offending address, key value or register index (R300, R301). Raised by the fetch, DRW, LD B,
  LD [I], LD Vx,[I], SKP, SKNP, the register-file port and the load port. Safe. -/
  | outOfBounds (value : Nat)
  /-- InvalidState (R302): raised by RET and, with STACK_LIMIT set, by CALL. Safe. -/
  | invalidState (info : InvalidStateInfo)
  /-- UnknownInstruction with the word (R303): raised by the dispatch of a word no pattern matches. Safe. -/
  | unknownInstruction (w : Word)
  /-- RenderError with the renderer's error unchanged (R304): raised by the frame hand-off. Safe. -/
  | renderError (e : RenderErr)
deriving DecidableEq, Repr

/-- The code of a fault kind (R300). -/
def Fault.code : Fault → Nat
  | .outOfBounds _ => 1
  | .invalidState _ => 2
  | .unknownInstruction _ => 3
  | .renderError _ => 4

/-- Why a step is not performed. -/
inductive Refusal where
  /-- An arm of the dispatch whose instruction has no meaning yet; no arm raises it. Safe. -/
  | notModelled (mnemonic : String)
  /-- Raised by `step` on a core with Faulted = true: "A Faulted core performs no step" (R128, R307; log 9). Safe. -/
  | coreFaulted
deriving DecidableEq, Repr

/-- The CORE's state (10_state.md), the ports a step reads or writes (R110) and the configuration (R8, R35). -/
structure State where
  /-- V0..VF (R20). -/
  v : Vector Byte 16
  /-- I (R23). -/
  i : Word
  /-- PC (R24). -/
  pc : Word
  /-- The call stack (R27), most recently pushed entry first (log 14). -/
  stack : List Word
  /-- DT (R29). -/
  dt : Byte
  /-- ST (R29). -/
  st : Byte
  /-- Mem (R31). -/
  mem : Memory
  /-- FB (R32). -/
  fb : FrameBuffer
  /-- StepCount (R37). -/
  stepCount : Nat
  /-- Faulted (R38). -/
  faulted : Bool
  /-- Input port Key (R34, R110): the host's; the core only reads it (log 5). -/
  key : KeyState
  /-- Input port rnd (R110, R113): the byte offered to the next RND, a free value (log 6). -/
  rnd : Byte
  /-- The index of the free draw the rnd port offers next (log 6). -/
  draws : Nat
  /-- Input port render_result (R110, R114): the renderer's answer to the next hand-off (log 7). -/
  renderAnswer : RenderAnswer
  /-- Output port frame (R110, R114): the frame last handed to the renderer, if any (log 8). -/
  frame : Option FrameBuffer
  /-- The configuration (R8), fixed for a run (R35; log 1). -/
  config : Config
deriving DecidableEq, Repr

/-- Construction of the CORE with a configuration: the reset values of R40, before any host load (R340). -/
def State.construct (c : Config) : State where
  v := match c.regReset with
    | .zero => Vector.replicate 16 0
    | .unspecified => Vector.ofFn Config.powerOnV
  i := match c.regReset with
    | .zero => 0
    | .unspecified => Config.powerOnI
  pc := 0x200
  stack := []
  dt := 0
  st := 0
  mem := []
  fb := FrameBuffer.blank
  stepCount := 0
  faulted := false
  key := Vector.replicate 16 false
  rnd := Config.freeDraw 0
  draws := 1
  renderAnswer := .ok
  frame := none
  config := c

/-- The machine right after reset: construction with the default configuration (R40, R340). -/
def State.reset : State := State.construct Config.standard

end Sys2Proof.Machine
end

