-- ==== Sys2Proof/Machine/Ops.lean ====
section
/-! DEFINITION. The named operations over registers, memory, frame buffer and ports that the instructions share, raising
a fault, and the phases of a step around the instruction body (40_cycle.md R120). -/

namespace Sys2Proof.Machine

/-- The result of a step or of an instruction body. -/
abbrev Result := Host.Outcome State Fault Refusal

/-! ## Faults -/

/-- `raise` (R14): the step ends at once with this fault. There is no trap: nothing is saved, control goes nowhere and
nothing returns (R306, R311, R312); the state left behind is unspecified, so none is given (R308; log 9). -/
def raise (f : Fault) : Result := .fault f

/-- What every fault does to the core's state: Faulted <- true (R307). The ports of Ports.lean use it. -/
def State.latchFault (s : State) : State := { s with faulted := true }

/-- End an instruction body: the next state, or the fault its first failing access raised (R14, R309). -/
def complete : Except Fault State → Result
  | .ok s => .next s
  | .error f => raise f

/-! ## Registers -/

/-- `V[r]` (R12) for an index that an instruction names (its type keeps it below 16, R22). -/
def State.getV (s : State) (r : Reg) : Byte := s.v[r.val]

/-- `V[r] <- b` (R12). -/
def State.setV (s : State) (r : Reg) (b : Byte) : State := { s with v := s.v.set r.val b }

/-- The register file's checked read, for an index used internally (R22). -/
def State.regGet (s : State) (k : Nat) : Except Fault Byte :=
  if h : k < 16 then .ok (s.getV ⟨k, h⟩) else .error (.outOfBounds k)

/-- The register file's checked write, for an index used internally (R22). -/
def State.regSet (s : State) (k : Nat) (b : Byte) : Except Fault State :=
  if h : k < 16 then .ok (s.setV ⟨k, h⟩ b) else .error (.outOfBounds k)

/-! ## Memory -/

/-- The byte at an address of the list, or what an unlisted address reads as (R31). -/
def Memory.read : Memory → Nat → Byte
  | [], _ => Memory.unlisted
  | c :: rest, a => if c.1 = a then c.2 else Memory.read rest a

/-- Put a cell before the first cell with a larger address. -/
def Memory.insert (c : Host.Cell) : Memory → Memory
  | [] => [c]
  | d :: rest => if c.1 < d.1 then c :: d :: rest else d :: Memory.insert c rest

/-- Replace the byte at an address, keeping the canonical form: a byte equal to what an unlisted address reads as is
not listed. -/
def Memory.write (m : Memory) (a : Nat) (b : Byte) : Memory :=
  let others := m.filter (fun c => c.1 ≠ a)
  if b = Memory.unlisted then others else Memory.insert (a, b) others

/-- `MemRead(a, 1)` (R51). -/
def State.memRead (s : State) (a : Nat) : Except Fault Byte :=
  if a ≥ 4096 then .error (.outOfBounds a) else .ok (s.mem.read a)

/-- `MemWrite(a, 1, b)` (R52). -/
def State.memWrite (s : State) (a : Nat) (b : Byte) : Except Fault State :=
  if a ≥ 4096 then .error (.outOfBounds a) else .ok { s with mem := s.mem.write a b }

/-- The `len` bytes from `a` on, in ascending order. -/
def Memory.block (m : Memory) (a : Nat) : Nat → List Byte
  | 0 => []
  | len + 1 => m.read a :: Memory.block m (a + 1) len

/-- `MemReadBlock(a, len)` (R53). -/
def State.memReadBlock (s : State) (a len : Nat) : Except Fault (List Byte) :=
  if a + len > 4096 then .error (.outOfBounds a) else .ok (s.mem.block a len)

/-- Byte writes at `a`, `a + 1`, …, one at a time in ascending order; the first address outside memory faults
(R54, R59). -/
def State.memWriteBytes (s : State) (a : Nat) : List Byte → Except Fault State
  | [] => .ok s
  | b :: bs =>
    match s.memWrite a b with
    | .ok t => t.memWriteBytes (a + 1) bs
    | .error f => .error f

/-- `for k in first .. first+count-1: MemWrite(base + k, 1, V[k])` (R239). -/
def State.storeLoop (s : State) (base first : Nat) : Nat → Except Fault State
  | 0 => .ok s
  | count + 1 =>
    match s.regGet first with
    | .error f => .error f
    | .ok b =>
      match s.memWrite (base + first) b with
      | .error f => .error f
      | .ok t => t.storeLoop base (first + 1) count

/-- `for k in first .. first+count-1: V[k] <- MemRead(base + k, 1)` (R240). -/
def State.loadLoop (s : State) (base first : Nat) : Nat → Except Fault State
  | 0 => .ok s
  | count + 1 =>
    match s.memRead (base + first) with
    | .error f => .error f
    | .ok b =>
      match s.regSet first b with
      | .error f => .error f
      | .ok t => t.loadLoop base (first + 1) count

/-- Copy bytes to `a`, `a + 1`, … with no check: the body of a host load, whose check comes first (R341). -/
def Memory.writeBytes (m : Memory) (a : Nat) : List Byte → Memory
  | [] => m
  | b :: bs => Memory.writeBytes (m.write a b) (a + 1) bs

/-! ## Frame buffer -/

/-- `FB[x][y]` (R12, R32). -/
def FrameBuffer.get (fb : FrameBuffer) (x : Fin 64) (y : Fin 32) : Bool := (fb.rows[y.val])[x.val]

/-- `FB[x][y] <- b`. -/
def FrameBuffer.set (fb : FrameBuffer) (x : Fin 64) (y : Fin 32) (b : Bool) : FrameBuffer :=
  ⟨fb.rows.set y.val ((fb.rows[y.val]).set x.val b)⟩

/-- One sprite pixel of DRW on (frame buffer, collision): clipped off screen, XORed on screen (R141). -/
def drawPixel (p : FrameBuffer × Bool) (px py : Nat) (bit : Bool) : FrameBuffer × Bool :=
  if h : px < 64 ∧ py < 32 then
    if bit then
      (p.1.set ⟨px, h.1⟩ ⟨py, h.2⟩ (!p.1.get ⟨px, h.1⟩ ⟨py, h.2⟩), p.2 || p.1.get ⟨px, h.1⟩ ⟨py, h.2⟩)
    else p
  else p

/-- Bit `7 - c` of a sprite byte: its pixel in column `c`, the most significant bit leftmost (R142; log 12). -/
def spriteBit (b : Byte) (c : Nat) : Bool := b.getLsbD (7 - c)

/-- One sprite row: columns 0 to 7 of byte `b` from `x0` on, at row `py` (R141). -/
def drawRow (p : FrameBuffer × Bool) (x0 py : Nat) (b : Byte) : FrameBuffer × Bool :=
  (List.range 8).foldl (fun q c => drawPixel q (x0 + c) py (spriteBit b c)) p

/-- The rows of a sprite, downward from `y0` (R141). -/
def drawSprite (p : FrameBuffer × Bool) (x0 y0 : Nat) : List Byte → FrameBuffer × Bool
  | [] => p
  | b :: bs => drawSprite (drawRow p x0 y0 b) x0 (y0 + 1) bs

/-! ## The rnd port -/

/-- An RND has consumed the byte on the rnd port; the port then offers the next free draw (R113; log 6). -/
def State.consumeDraw (s : State) : State :=
  { s with rnd := Config.freeDraw s.draws, draws := s.draws + 1 }

/-! ## The phases of a step around the body (R120) -/

/-- Fetch (R121): the byte at PC, then the byte at PC + 1, joined big-endian (R58). -/
def fetch (s : State) : Except Fault Word :=
  match s.memRead s.pc.toNat with
  | .error f => .error f
  | .ok hi =>
    match s.memRead (s.pc.toNat + 1) with
    | .error f => .error f
    | .ok lo => .ok (joinBytes hi lo)

/-- Fetch, decode and dispatch (R121, R122, R124): the instruction at PC, or the first fault in that order (R309). -/
def fetchDecode (s : State) : Except Fault Instr :=
  match fetch s with
  | .error f => .error f
  | .ok w =>
    match decodeWord w with
    | .ok i => .ok i
    | .error _ => .error (.unknownInstruction w)

/-- Advance (R123): PC <- (PC + 2) mod 2^16, before the body. -/
def advance (s : State) : State := { s with pc := s.pc + 2 }

/-- Decrement of a timer, saturating at 0 (R30). -/
def decrement (t : Byte) : Byte := if t = 0 then 0 else t - 1

/-- Timer cadence (R126): StepCount counts the step; at TIMER_PERIOD it restarts and both timers are decremented. -/
def tick (s : State) : State :=
  { s with
    stepCount := if s.stepCount + 1 = s.config.timerPeriod then 0 else s.stepCount + 1
    dt := if s.stepCount + 1 = s.config.timerPeriod then decrement s.dt else s.dt
    st := if s.stepCount + 1 = s.config.timerPeriod then decrement s.st else s.st }

/-- The frame port takes the snapshot of FB (R110, R114), whatever the renderer then answers. -/
def handFrame (s : State) : State := { s with frame := some s.fb }

/-- Render (R114, R125), then the timer cadence: the frame is handed over; the renderer's error ends the step before the
cadence (R304), and what was handed over then stands in `faultEnd` of Ports.lean, since a fault carries no state. -/
def handOff (s : State) : Result :=
  match s.renderAnswer with
  | .ok => .next (tick (handFrame s))
  | .error e => raise (.renderError e)

/-- The phases after the body (R120): only a body that completed is followed by them. -/
def finishStep : Result → Result
  | .next s => handOff s
  | .fault f => .fault f
  | .refused r => .refused r

/-- An address an instruction can be fetched from: PC itself when both bytes are in memory, else ROM_BASE (R60). -/
def fetchAddress (s : State) : Nat := if s.pc.toNat ≤ 4094 then s.pc.toNat else 0x200

/-- Place a word where the next fetch reads it, high byte first (R58), on a core that may step (R128; log 15). -/
def placeWord (s : State) (w : Word) : State :=
  { s with
    mem := s.mem.writeBytes (fetchAddress s) [hiByte w, loByte w]
    pc := BitVec.ofNat 16 (fetchAddress s)
    faulted := false }

end Sys2Proof.Machine
end

