-- ==== Sys2Proof/Machine/Flags.lean ====
section
/-! DEFINITION. The one flag, VF, and every flag computation of the spec (43_alu.md R193, R206, R208; 41_display.md
R143). -/

namespace Sys2Proof.Machine

/-- A flag as VF holds it: 1 or 0. -/
def flagByte (b : Bool) : Byte := if b then 1 else 0

/-- `VF <- flag`. -/
def State.setFlag (s : State) (b : Bool) : State := s.setV Reg.vf (flagByte b)

/-- Carry of the 8-bit addition a + b: the exact sum reaches 256 (R193). -/
def carry (a b : Byte) : Bool := decide (a.toNat + b.toNat ≥ 256)

/-- No-borrow of the 8-bit subtraction a - b: a >= b, equality included (R193). -/
def noBorrow (a b : Byte) : Bool := decide (a.toNat ≥ b.toNat)

/-- The bit a right shift by one puts out: the low bit of the pre-shift value (R206). -/
def shiftedOutLow (src : Byte) : Bool := src.getLsbD 0

/-- The bit a left shift by one puts out: the high bit of the pre-shift value (R208). -/
def shiftedOutHigh (src : Byte) : Bool := src.getLsbD 7

/-- Write the result to V[x] and then the flag to VF, so that with x = 0xF the flag stands (R21, R192). -/
def State.setResultFlag (s : State) (x : Reg) (result : Byte) (flag : Bool) : State :=
  (s.setV x result).setFlag flag

end Sys2Proof.Machine
end

