-- ==== Sys2Proof/Machine/Operands.lean ====
section
/-! DEFINITION. The operand forms of 30_encoding.md R83 and R84 beyond a plain register or literal. -/

namespace Sys2Proof.Machine

/-- `zext_16(nnn)` (R11, R83). -/
def zextAddr (nnn : Addr) : Word := nnn.setWidth 16

/-- `zext_16` of a register's value (R11). -/
def zextByte (b : Byte) : Word := b.setWidth 16

/-- The operand of SHR and SHL: V[y], or V[x] with SHIFT_SRC = VX (R206, R208; D14). -/
def State.shiftSource (s : State) (x y : Reg) : Byte :=
  match s.config.shiftSrc with
  | .vy => s.getV y
  | .vx => s.getV x

/-- The offset of Bnnn: V[0], or V[nnn[11:8]] with JUMP_OFFSET_REG = VX_OF_NNN (R168; D15). -/
def State.jumpOffset (s : State) (nnn : Addr) : Byte :=
  match s.config.jumpOffsetReg with
  | .v0 => s.getV 0
  | .vxOfNnn => s.getV (regOf (nnn.extractLsb' 8 4))

/-- The address of the first byte of an access through I, an exact natural (R54, R241). -/
def State.indexAddr (s : State) : Nat := s.i.toNat

/-- `pressed(v)` (R262): the key a register's value names. -/
def State.pressed (s : State) (b : Byte) : Except Fault Bool :=
  if h : b.toNat < 16 then .ok s.key[b.toNat]
  else
    match s.config.keyOob with
    | .fault => .error (.outOfBounds b.toNat)
    | .notPressed => .ok false

/-- "the lowest-indexed pressed key" (R266), if any is pressed. -/
def lowestPressed (key : KeyState) : Option (Fin 16) :=
  (List.finRange 16).find? (fun k => key[k.val])

/-- The skip of SE, SNE, SKP and SKNP: 2 more on PC when the condition holds (R163). -/
def State.skipIf (s : State) (cond : Bool) : State :=
  { s with pc := if cond then s.pc + 2 else s.pc }

/-- The decimal digits of a byte, hundreds first (R58, R238). -/
def decimalDigits (b : Byte) : List Byte :=
  [BitVec.ofNat 8 (b.toNat / 100), BitVec.ofNat 8 (b.toNat / 10 % 10), BitVec.ofNat 8 (b.toNat % 10)]

end Sys2Proof.Machine
end

