-- ==== Sys2Proof/Machine/Alu.lean ====
section
/-! DEFINITION. Register and ALU instructions (43_alu.md). Results are the exact integer result mod 2^8 (R194); all
operands are read before any write, and a flag is written last (R192). -/

namespace Sys2Proof.Machine

/-- LD Vx, nn (R190). -/
def execLdImm (x : Reg) (nn : Byte) (s : State) : Result := .next (s.setV x nn)

/-- ADD Vx, nn (R191): no flag. -/
def execAddImm (x : Reg) (nn : Byte) (s : State) : Result := .next (s.setV x (s.getV x + nn))

/-- LD Vx, Vy (R200). -/
def execLdReg (x y : Reg) (s : State) : Result := .next (s.setV x (s.getV y))

/-- OR Vx, Vy (R201): no flag (R195). -/
def execOrReg (x y : Reg) (s : State) : Result := .next (s.setV x (s.getV x ||| s.getV y))

/-- AND Vx, Vy (R202): no flag (R195). -/
def execAndReg (x y : Reg) (s : State) : Result := .next (s.setV x (s.getV x &&& s.getV y))

/-- XOR Vx, Vy (R203): no flag (R195). -/
def execXorReg (x y : Reg) (s : State) : Result := .next (s.setV x (s.getV x ^^^ s.getV y))

/-- ADD Vx, Vy (R204): VF = carry. -/
def execAddReg (x y : Reg) (s : State) : Result :=
  .next (s.setResultFlag x (s.getV x + s.getV y) (carry (s.getV x) (s.getV y)))

/-- SUB Vx, Vy (R205): VF = no-borrow of Vx - Vy. -/
def execSubReg (x y : Reg) (s : State) : Result :=
  .next (s.setResultFlag x (s.getV x - s.getV y) (noBorrow (s.getV x) (s.getV y)))

/-- SHR Vx, Vy (R206): a logical shift by one, VF = the bit shifted out. -/
def execShr (x y : Reg) (s : State) : Result :=
  .next (s.setResultFlag x (s.shiftSource x y >>> 1) (shiftedOutLow (s.shiftSource x y)))

/-- SUBN Vx, Vy (R207): VF = no-borrow of Vy - Vx. -/
def execSubn (x y : Reg) (s : State) : Result :=
  .next (s.setResultFlag x (s.getV y - s.getV x) (noBorrow (s.getV y) (s.getV x)))

/-- SHL Vx, Vy (R208): VF = the bit shifted out. -/
def execShl (x y : Reg) (s : State) : Result :=
  .next (s.setResultFlag x (s.shiftSource x y <<< 1) (shiftedOutHigh (s.shiftSource x y)))

/-- RND Vx, nn (R209): the byte on the rnd port, masked by nn with RND_AND_NN (D17). -/
def execRnd (x : Reg) (nn : Byte) (s : State) : Result :=
  .next (s.consumeDraw.setV x (if s.config.rndAndNn then s.rnd &&& nn else s.rnd))

end Sys2Proof.Machine
end

