-- ==== Sys2Proof/Machine/Control.lean ====
section
/-! DEFINITION. Control transfer (42_control.md). On entry PC is the instruction's address + 2 (R123). -/

namespace Sys2Proof.Machine

/-- RET (R160). -/
def execRet (s : State) : Result :=
  match s.stack with
  | [] => raise (.invalidState .emptyStack)
  | top :: rest => .next { s with pc := top, stack := rest }

/-- JP nnn (R161). -/
def execJp (nnn : Addr) (s : State) : Result := .next { s with pc := zextAddr nnn }

/-- CALL nnn (R162): the pushed PC is already the return address; a full stack (R28) pushes nothing. -/
def execCall (nnn : Addr) (s : State) : Result :=
  if s.config.stackLimit = some s.stack.length then raise (.invalidState .stackFull)
  else .next { s with stack := s.pc :: s.stack, pc := zextAddr nnn }

/-- SE Vx, nn (R164). -/
def execSeImm (x : Reg) (nn : Byte) (s : State) : Result := .next (s.skipIf (s.getV x == nn))

/-- SNE Vx, nn (R165). -/
def execSneImm (x : Reg) (nn : Byte) (s : State) : Result := .next (s.skipIf (s.getV x != nn))

/-- SE Vx, Vy (R166). -/
def execSeReg (x y : Reg) (s : State) : Result := .next (s.skipIf (s.getV x == s.getV y))

/-- SNE Vx, Vy (R167). -/
def execSneReg (x y : Reg) (s : State) : Result := .next (s.skipIf (s.getV x != s.getV y))

/-- JP V0, nnn (R168). -/
def execJpV0 (nnn : Addr) (s : State) : Result :=
  .next { s with pc := zextAddr nnn + zextByte (s.jumpOffset nnn) }

end Sys2Proof.Machine
end

