-- ==== Sys2Proof/Machine/Display.lean ====
section
/-! DEFINITION. Display instructions (41_display.md). -/

namespace Sys2Proof.Machine

/-- CLS (R140). -/
def execCls (s : State) : Result := .next { s with fb := FrameBuffer.blank }

/-- DRW Vx, Vy, n (R141 to R143): the origin is read before VF is written, the block read is checked before any cell
changes, the collision flag is the last write. -/
def execDrw (x y : Reg) (n : Nibble) (s : State) : Result :=
  match s.memReadBlock s.indexAddr n.toNat with
  | .error f => raise f
  | .ok sprite =>
    let drawn := drawSprite (s.fb, false) ((s.getV x).toNat % 64) ((s.getV y).toNat % 32) sprite
    .next ({ s with fb := drawn.1 }.setFlag drawn.2)

end Sys2Proof.Machine
end

