-- ==== Sys2Proof/Machine/IndexMemory.lean ====
section
/-! DEFINITION. Index register and memory instructions (44_index_memory.md). No access changes I (R241). -/

namespace Sys2Proof.Machine

/-- LD I, nnn (R235). -/
def execLdI (nnn : Addr) (s : State) : Result := .next { s with i := zextAddr nnn }

/-- ADD I, Vx (R236): modulo 65536, no flag. -/
def execAddI (x : Reg) (s : State) : Result := .next { s with i := s.i + zextByte (s.getV x) }

/-- LD F, Vx (R237): all eight bits of Vx (D25). -/
def execLdF (x : Reg) (s : State) : Result :=
  .next { s with i := BitVec.ofNat 16 (s.config.fontBase.toNat + (s.getV x).toNat * 5) }

/-- LD B, Vx (R238): hundreds, tens and ones at I, I+1, I+2. -/
def execLdB (x : Reg) (s : State) : Result :=
  complete (s.memWriteBytes s.indexAddr (decimalDigits (s.getV x)))

/-- LD [I], Vx (R239): V0..Vx to I..I+x. -/
def execStoreRegs (x : Reg) (s : State) : Result :=
  complete (s.storeLoop s.indexAddr 0 (x.val + 1))

/-- LD Vx, [I] (R240): V0..Vx from I..I+x. -/
def execLoadRegs (x : Reg) (s : State) : Result :=
  complete (s.loadLoop s.indexAddr 0 (x.val + 1))

end Sys2Proof.Machine
end

