-- ==== Sys2Proof/Machine/KeysTimers.lean ====
section
/-! DEFINITION. Keypad and timer instructions (45_keys_timers.md). -/

namespace Sys2Proof.Machine

/-- SKP Vx (R260). -/
def execSkp (x : Reg) (s : State) : Result :=
  match s.pressed (s.getV x) with
  | .error f => raise f
  | .ok down => .next (s.skipIf down)

/-- SKNP Vx (R261). -/
def execSknp (x : Reg) (s : State) : Result :=
  match s.pressed (s.getV x) with
  | .error f => raise f
  | .ok down => .next (s.skipIf (!down))

/-- LD Vx, DT (R263): DT before this step's tick (R126). -/
def execLdVxDt (x : Reg) (s : State) : Result := .next (s.setV x s.dt)

/-- LD DT, Vx (R264). -/
def execLdDtVx (x : Reg) (s : State) : Result := .next { s with dt := s.getV x }

/-- LD ST, Vx (R265). -/
def execLdStVx (x : Reg) (s : State) : Result := .next { s with st := s.getV x }

/-- LD Vx, K (R266): the least pressed key, or back to this instruction when none is pressed. -/
def execLdVxK (x : Reg) (s : State) : Result :=
  match lowestPressed s.key with
  | some k => .next (s.setV x (BitVec.ofNat 8 k.val))
  | none => .next { s with pc := s.pc - 2 }

end Sys2Proof.Machine
end

