-- ==== Sys2Proof/Machine/Step.lean ====
section
/-! DEFINITION. One step (40_cycle.md R120). -/

namespace Sys2Proof.Machine

/-- `Step()` (R120): fetch, decode, advance, execute, render, timer cadence, in that order; the first fault ends it.
A core with Faulted = true performs no step (R128). -/
def step (s : State) : Host.Outcome State Fault Refusal :=
  if s.faulted then .refused .coreFaulted
  else
    match fetchDecode s with
    | .error f => raise f
    | .ok i => finishStep (exec i (advance s))

/-- `s` with the word `w` (numbered as spec/opcode_table.json numbers it) stored where `step` fetches its next
instruction (log 15). -/
def State.withFetchWord (s : State) (nbits w : Nat) : State := placeWord s (tableWord nbits w)

end Sys2Proof.Machine
end

