-- ==== Sys2Proof/Machine/Ports.lean ====
section
/-! DEFINITION. The transactions of the block interface beside `step` (40_cycle.md R110): loading, the host's input ports,
booting, and the step request with its reply. The host makes them between steps only (R115). The observe port is reading
the fields of `State`; it changes nothing. -/

namespace Sys2Proof.Machine

/-- `load(offset, data, rom)` (R341, R342): checked before any byte is written; a ROM load also sets PC. -/
def State.load (s : State) (offset : Nat) (data : List Byte) (rom : Bool) : Except Fault State :=
  if offset + data.length > 4096 then .error (.outOfBounds offset)
  else .ok { s with
    mem := s.mem.writeBytes offset data
    pc := if rom then BitVec.ofNat 16 offset else s.pc }

/-- The host writes the key vector (R34, R112). -/
def State.hostSetKey (s : State) (key : KeyState) : State := { s with key := key }

/-- The host presents a byte on the rnd port (R110, R113). -/
def State.hostSetRnd (s : State) (r : Byte) : State := { s with rnd := r }

/-- The renderer's answer to the next hand-off (R110, R114). -/
def State.hostSetRenderAnswer (s : State) (a : RenderAnswer) : State := { s with renderAnswer := a }

/-- The boot sequence up to the first step (R343): construct, load the font at FONT_BASE, load the ROM at 0x200. -/
def boot (c : Config) (font rom : List Byte) : Except Fault State :=
  match (State.construct c).load c.fontBase.toNat font false with
  | .error f => .error f
  | .ok s => s.load 0x200 rom true

/-- The result of a step request (R110, R111). -/
inductive Reply where
  | ok
  | fault (f : Fault)
deriving DecidableEq, Repr

/-- Where a faulting step on `s` ends, in the state elements that R308 does not leave unspecified: a fault of the fetch,
the dispatch or the body comes before any of them changes; after a completed body the frame has been handed to the
renderer, whose error is then the fault (R114, R304). StepCount does not count the step (R126). -/
def faultEnd (s : State) : State :=
  match fetchDecode s with
  | .error _ => s
  | .ok i =>
    match exec i (advance s) with
    | .next t => handFrame t
    | _ => s

/-- A step request on `s` may answer `r` and leave `s'` (R110, R111). After a fault Faulted is set (R307) and every
element R308 lists holds any value (Mem in its canonical form); every other element is as the step left it (log 9). A
faulted core performs no step, so a request on it has no answer (R128). -/
def stepPort (s : State) (r : Reply) (s' : State) : Prop :=
  match step s with
  | .next t => r = .ok ∧ s' = t
  | .fault f => r = .fault f ∧
    ∃ (v : Vector Byte 16) (i pc : Word) (stack : List Word) (dt st : Byte) (mem : Memory) (fb : FrameBuffer),
      mem.wf ∧ s' = { (faultEnd s).latchFault with
        v := v, i := i, pc := pc, stack := stack, dt := dt, st := st, mem := mem, fb := fb }
  | .refused _ => False

end Sys2Proof.Machine
end

