-- ==== Sys2Proof/Safety.lean ====
section
/-! DEFINITION. The terms claims use: a safe step, the invariant of running states, the states a session reaches, and
what an instruction leaves unchanged. -/

namespace Sys2Proof.Machine

/-- A step that completes with result Ok (40_cycle.md R111). -/
def StepsSafely (s : State) : Prop := ∃ t, step s = .next t

/-- What every running state of a well-formed configuration satisfies: canonical memory, StepCount in its range (R37),
no more stack entries than STACK_LIMIT (R28), and the bounds on PC and on return addresses that keep PC from wrapping
(R26). -/
structure Inv (s : State) : Prop where
  config : s.config.wellFormed = true
  mem : s.mem.wf
  stepCount : s.stepCount < s.config.timerPeriod
  stackLimit : ∀ d, s.config.stackLimit = some d → s.stack.length ≤ d
  pc : s.pc.toNat ≤ 0x10FE
  returns : ∀ a ∈ s.stack, a.toNat ≤ 0x1000
  running : s.faulted = false

/-- The running states of a session with configuration `c`: construction, then steps and host transactions in any
order (R110, R115, R340 to R343). -/
inductive Reachable (c : Config) : State → Prop where
  | construct : Reachable c (State.construct c)
  | step {s t : State} : Reachable c s → Machine.step s = .next t → Reachable c t
  | load {s t : State} {offset : Nat} {data : List Byte} {rom : Bool} :
      Reachable c s → s.load offset data rom = .ok t → Reachable c t
  | key {s : State} (k : KeyState) : Reachable c s → Reachable c (s.hostSetKey k)
  | rnd {s : State} (r : Byte) : Reachable c s → Reachable c (s.hostSetRnd r)
  | renderAnswer {s : State} (a : RenderAnswer) : Reachable c s → Reachable c (s.hostSetRenderAnswer a)

/-- What a claim says an instruction may change; everything it does not name is to stay. `len` bytes of memory from
`base` on may change. -/
structure Touch where
  v : List Reg := []
  i : Bool := false
  pc : Bool := false
  stack : Bool := false
  dt : Bool := false
  st : Bool := false
  fb : Bool := false
  rnd : Bool := false
  base : Nat := 0
  len : Nat := 0

/-- The frame of an instruction that takes `s` to `t`: all that `w` does not name is unchanged, every byte of memory and
every cell of the frame buffer through the model's own read of one byte or cell. -/
structure KeepsRest (w : Touch) (s t : State) : Prop where
  v : ∀ r : Reg, r ∉ w.v → t.getV r = s.getV r
  i : w.i = false → t.i = s.i
  pc : w.pc = false → t.pc = s.pc
  stack : w.stack = false → t.stack = s.stack
  dt : w.dt = false → t.dt = s.dt
  st : w.st = false → t.st = s.st
  mem : ∀ a : Nat, ¬(w.base ≤ a ∧ a < w.base + w.len) → t.mem.read a = s.mem.read a
  fb : w.fb = false → ∀ (x : Fin 64) (y : Fin 32), t.fb.get x y = s.fb.get x y
  rnd : w.rnd = false → t.rnd = s.rnd ∧ t.draws = s.draws
  stepCount : t.stepCount = s.stepCount
  faulted : t.faulted = s.faulted
  key : t.key = s.key
  renderAnswer : t.renderAnswer = s.renderAnswer
  frame : t.frame = s.frame
  config : t.config = s.config

/-- The registers an instruction names as destination: its x, VF where it writes a flag (R21, R195, R143), V0..Vx for the
block load (R240). -/
def destRegs : Instr → List Reg
  | .ldImm x _ | .addImm x _ | .rnd x _ => [x]
  | .ldReg x _ | .orReg x _ | .andReg x _ | .xorReg x _ => [x]
  | .addReg x _ | .subReg x _ | .shr x _ | .subn x _ | .shl x _ => [x, Reg.vf]
  | .drw _ _ _ => [Reg.vf]
  | .ldVxDt x | .ldVxK x => [x]
  | .loadRegs x => (List.finRange 16).filter (fun r => r ≤ x)
  | _ => []

/-- What an instruction makes of the advanced PC of `s` (R25, R163 to R168, R260 to R262, R266): a skip goes on by 2
exactly when its condition holds, LD Vx, K goes back exactly when no key is pressed, the rest leave it alone. A key
value of 16 or more that does not fault is not pressed (R262). -/
def PcRule (i : Instr) (s : State) (pc : Word) : Prop :=
  match i with
  | .ret => s.stack.head? = some pc
  | .jp nnn | .call nnn => pc.toNat = nnn.toNat
  | .jpV0 nnn => pc.toNat = nnn.toNat + (s.jumpOffset nnn).toNat
  | .seImm x nn => pc = if s.getV x = nn then s.pc + 2 else s.pc
  | .sneImm x nn => pc = if s.getV x = nn then s.pc else s.pc + 2
  | .seReg x y => pc = if s.getV x = s.getV y then s.pc + 2 else s.pc
  | .sneReg x y => pc = if s.getV x = s.getV y then s.pc else s.pc + 2
  | .skp x => pc = if s.key[(s.getV x).toNat]? = some true then s.pc + 2 else s.pc
  | .sknp x => pc = if s.key[(s.getV x).toNat]? = some true then s.pc else s.pc + 2
  | .ldVxK _ => pc = if ∃ k : Fin 16, s.key[k.val] = true then s.pc else s.pc - 2
  | _ => pc = s.pc

/-- The faults an instruction's body can raise from `s` (R301, R302, R305): none but those its row lists. -/
def FaultRule (i : Instr) (s : State) (f : Fault) : Prop :=
  match i with
  | .ret => s.stack = [] ∧ f = .invalidState .emptyStack
  | .call _ => s.config.stackLimit = some s.stack.length ∧ f = .invalidState .stackFull
  | .drw _ _ n => s.i.toNat + n.toNat > 4096 ∧ f = .outOfBounds s.i.toNat
  | .ldB _ => s.i.toNat + 3 > 4096 ∧ f = .outOfBounds (max s.i.toNat 4096)
  | .storeRegs x | .loadRegs x => s.i.toNat + (x.val + 1) > 4096 ∧ f = .outOfBounds (max s.i.toNat 4096)
  | .skp x | .sknp x =>
    (s.getV x).toNat ≥ 16 ∧ s.config.keyOob = .fault ∧ f = .outOfBounds (s.getV x).toNat
  | _ => False

/-- Whether a sprite drawn with its origin at (x0, y0) has a set bit at (x, y): row `y - y0` is its byte, column
`x - x0` the bit `7 - (x - x0)` of it (R141, R142; log 12). -/
def spriteCovers (x0 y0 : Nat) (sprite : List Byte) (x y : Nat) : Bool :=
  decide (x0 ≤ x ∧ x < x0 + 8) && decide (y0 ≤ y ∧ y < y0 + sprite.length) &&
    (sprite.getD (y - y0) 0).getLsbD (7 - (x - x0))

end Sys2Proof.Machine
end

