-- ==== Sys2Proof/Certificates/Slice0/Obligations.lean ====
section
/-! DEFINITION. The statements about the model, for the provers. A statement about an instruction is about `exec` on a
state whose PC has been advanced already (40_cycle.md R123, R124): `s.pc` is the address after the instruction. -/

open Sys2Proof Sys2Proof.Machine

/-! ## Encoding and decoding -/

/-- The words of the decode vectors DEC-1 to DEC-13 and of the examples S4, S8 and S9 (95_test_vectors.md) decode to the
instruction written there or are unknown. The bit patterns but for 6xnn, Annn and 1nnn are the spec's own adoption (D2,
log 11). -/
def Obligations.SampleWordsDecode : Prop :=
  decodeWord 0x00E0 = .ok .cls ∧ decodeWord 0x00EE = .ok .ret ∧
  decodeWord 0x8ABE = .ok (.shl 10 11) ∧ decodeWord 0xD123 = .ok (.drw 1 2 3) ∧
  decodeWord 0xF165 = .ok (.loadRegs 1) ∧ decodeWord 0x602A = .ok (.ldImm 0 0x2A) ∧
  decodeWord 0xA000 = .ok (.ldI 0) ∧ decodeWord 0x1200 = .ok (.jp 0x200) ∧
  decodeWord 0x0000 = .error (.unknownInstruction 0x0000) ∧
  decodeWord 0x00E1 = .error (.unknownInstruction 0x00E1) ∧
  decodeWord 0x0123 = .error (.unknownInstruction 0x0123) ∧
  decodeWord 0x5121 = .error (.unknownInstruction 0x5121) ∧
  decodeWord 0x8AB8 = .error (.unknownInstruction 0x8AB8) ∧
  decodeWord 0x9AB1 = .error (.unknownInstruction 0x9AB1) ∧
  decodeWord 0xE09F = .error (.unknownInstruction 0xE09F) ∧
  decodeWord 0xF0F0 = .error (.unknownInstruction 0xF0F0) ∧
  decodeWord 0xFFFF = .error (.unknownInstruction 0xFFFF)

/-- "The fields of the one format, all extracted from every word" (R81), as the numbers R10 and R11 define; the
extractor has no error path, and the fields of the bytes F0 F0 are those of R82's example. -/
def Obligations.FieldsOfEveryWord : Prop :=
  (∀ hi lo : Byte,
    let w := hi.toNat * 256 + lo.toNat
    let f := parse hi lo
    f.opcode.toNat = w / 2 ^ 12 ∧ f.x.toNat = w / 2 ^ 8 % 2 ^ 4 ∧ f.y.toNat = w / 2 ^ 4 % 2 ^ 4 ∧
      f.n.toNat = w % 2 ^ 4 ∧ f.nn.toNat = w % 2 ^ 8 ∧ f.nnn.toNat = w % 2 ^ 12) ∧
  parse 0xF0 0xF0 = { opcode := 0xF, x := 0x0, y := 0xF, n := 0x0, nn := 0xF0, nnn := 0x0F0 }

/-- Each of the 34 patterns of R92, with every value in its fields, decodes to its instruction. The bit patterns are
the spec's own adoption (D2, log 11). -/
def Obligations.EveryPatternDecodes : Prop :=
  ∀ (x y n : Nibble) (nn : Byte) (nnn : Addr),
    decodeWord 0x00E0 = .ok .cls ∧
    decodeWord 0x00EE = .ok .ret ∧
    decodeWord (0x1#4 ++ nnn) = .ok (.jp nnn) ∧
    decodeWord (0x2#4 ++ nnn) = .ok (.call nnn) ∧
    decodeWord (0x3#4 ++ x ++ nn) = .ok (.seImm x.toFin nn) ∧
    decodeWord (0x4#4 ++ x ++ nn) = .ok (.sneImm x.toFin nn) ∧
    decodeWord (0x5#4 ++ x ++ y ++ 0x0#4) = .ok (.seReg x.toFin y.toFin) ∧
    decodeWord (0x6#4 ++ x ++ nn) = .ok (.ldImm x.toFin nn) ∧
    decodeWord (0x7#4 ++ x ++ nn) = .ok (.addImm x.toFin nn) ∧
    decodeWord (0x8#4 ++ x ++ y ++ 0x0#4) = .ok (.ldReg x.toFin y.toFin) ∧
    decodeWord (0x8#4 ++ x ++ y ++ 0x1#4) = .ok (.orReg x.toFin y.toFin) ∧
    decodeWord (0x8#4 ++ x ++ y ++ 0x2#4) = .ok (.andReg x.toFin y.toFin) ∧
    decodeWord (0x8#4 ++ x ++ y ++ 0x3#4) = .ok (.xorReg x.toFin y.toFin) ∧
    decodeWord (0x8#4 ++ x ++ y ++ 0x4#4) = .ok (.addReg x.toFin y.toFin) ∧
    decodeWord (0x8#4 ++ x ++ y ++ 0x5#4) = .ok (.subReg x.toFin y.toFin) ∧
    decodeWord (0x8#4 ++ x ++ y ++ 0x6#4) = .ok (.shr x.toFin y.toFin) ∧
    decodeWord (0x8#4 ++ x ++ y ++ 0x7#4) = .ok (.subn x.toFin y.toFin) ∧
    decodeWord (0x8#4 ++ x ++ y ++ 0xE#4) = .ok (.shl x.toFin y.toFin) ∧
    decodeWord (0x9#4 ++ x ++ y ++ 0x0#4) = .ok (.sneReg x.toFin y.toFin) ∧
    decodeWord (0xA#4 ++ nnn) = .ok (.ldI nnn) ∧
    decodeWord (0xB#4 ++ nnn) = .ok (.jpV0 nnn) ∧
    decodeWord (0xC#4 ++ x ++ nn) = .ok (.rnd x.toFin nn) ∧
    decodeWord (0xD#4 ++ x ++ y ++ n) = .ok (.drw x.toFin y.toFin n) ∧
    decodeWord (0xE#4 ++ x ++ 0x9E#8) = .ok (.skp x.toFin) ∧
    decodeWord (0xE#4 ++ x ++ 0xA1#8) = .ok (.sknp x.toFin) ∧
    decodeWord (0xF#4 ++ x ++ 0x07#8) = .ok (.ldVxDt x.toFin) ∧
    decodeWord (0xF#4 ++ x ++ 0x0A#8) = .ok (.ldVxK x.toFin) ∧
    decodeWord (0xF#4 ++ x ++ 0x15#8) = .ok (.ldDtVx x.toFin) ∧
    decodeWord (0xF#4 ++ x ++ 0x18#8) = .ok (.ldStVx x.toFin) ∧
    decodeWord (0xF#4 ++ x ++ 0x1E#8) = .ok (.addI x.toFin) ∧
    decodeWord (0xF#4 ++ x ++ 0x29#8) = .ok (.ldF x.toFin) ∧
    decodeWord (0xF#4 ++ x ++ 0x33#8) = .ok (.ldB x.toFin) ∧
    decodeWord (0xF#4 ++ x ++ 0x55#8) = .ok (.storeRegs x.toFin) ∧
    decodeWord (0xF#4 ++ x ++ 0x65#8) = .ok (.loadRegs x.toFin)

/-- Decoding the word, or the bytes, of any instruction gives it back, whatever bytes follow. -/
def Obligations.DecodeEncodeRoundTrip : Prop :=
  ∀ (i : Instr) (rest : List Byte),
    decodeWord (encode i) = .ok i ∧ decode (encodeBytes i ++ rest) = .ok (i, rest)

/-- A word that decodes is the word of the instruction it decodes to: each instruction has one word, and no bit of a
decoded word is dropped ("no instruction has don't-care bits", R85; D3). -/
def Obligations.EncodeDecodeRoundTrip : Prop :=
  ∀ (w : Word) (i : Instr), decodeWord w = .ok i → encode i = w

/-- The unknown words are exactly those R93 lists by opcode nibble (R85, R87; D2, D3, D4: log 11, log 13). -/
def Obligations.UnknownWordsAreThoseListed : Prop :=
  ∀ w : Word,
    decodeWord w = .error (.unknownInstruction w) ↔
      (w.toNat / 2 ^ 12 = 0x0 ∧ w ≠ 0x00E0 ∧ w ≠ 0x00EE) ∨
      (w.toNat / 2 ^ 12 = 0x5 ∧ w.toNat % 16 ≠ 0) ∨
      (w.toNat / 2 ^ 12 = 0x8 ∧ w.toNat % 16 ∈ [0x8, 0x9, 0xA, 0xB, 0xC, 0xD, 0xF]) ∨
      (w.toNat / 2 ^ 12 = 0x9 ∧ w.toNat % 16 ≠ 0) ∨
      (w.toNat / 2 ^ 12 = 0xE ∧ w.toNat % 256 ∉ [0x9E, 0xA1]) ∨
      (w.toNat / 2 ^ 12 = 0xF ∧
        w.toNat % 256 ∉ [0x07, 0x0A, 0x15, 0x18, 0x1E, 0x29, 0x33, 0x55, 0x65])

/-! ## Memory, registers, timers -/

/-- "For all addresses a >= 4096, get(a) ... fail with OutOfBounds; for all a < 4096 they succeed" (R51), and a write
stores its byte with "No side effects beyond the mutation itself" (R52). -/
def Obligations.ByteReadAndWriteBounds : Prop :=
  ∀ (s : State) (a : Nat) (b : Byte),
    (4096 ≤ a → s.memRead a = .error (.outOfBounds a) ∧ s.memWrite a b = .error (.outOfBounds a)) ∧
    (a < 4096 →
      s.memRead a = .ok (s.mem.read a) ∧
      ∃ t, s.memWrite a b = .ok t ∧ t.memRead a = .ok b ∧
        (∀ q, q ≠ a → t.memRead q = s.memRead q) ∧ t = { s with mem := t.mem })

/-- A block read gives the bytes at a, a+1, …, a+len-1, and faults exactly when a + len > 4096, also for len = 0
(20_memory.md section 2; D12: log 13). -/
def Obligations.BlockReadBytesAndBounds : Prop :=
  ∀ (s : State) (a len : Nat),
    (a + len > 4096 → s.memReadBlock a len = .error (.outOfBounds a)) ∧
    (a + len ≤ 4096 →
      ∃ bytes, s.memReadBlock a len = .ok bytes ∧ bytes.length = len ∧
        ∀ k, k < len → bytes[k]? = some (s.mem.read (a + k)))

/-- The register file's checked port (R22): an index of 16 or more fails with OutOfBounds, and below 16 a read after a
write of the same register gives the written value, every other register unchanged. -/
def Obligations.RegisterFilePort : Prop :=
  ∀ (s : State) (k : Nat) (b : Byte),
    (16 ≤ k → s.regGet k = .error (.outOfBounds k) ∧ s.regSet k b = .error (.outOfBounds k)) ∧
    (k < 16 → ∃ t, s.regSet k b = .ok t ∧ t.regGet k = .ok b ∧ ∀ q, q ≠ k → t.regGet q = s.regGet q)

/-- "decrements by exactly 1, saturating at 0 (never wraps negative)"; "set(v); decrement() yields max(v-1, 0), and
repeated decrement from 0 stays 0" (R30). -/
def Obligations.TimerDecrementSaturates : Prop :=
  (∀ t : Byte, (decrement t).toNat = t.toNat - 1) ∧ ∀ k : Nat, decrement^[k] 0 = 0

/-- The law of the cadence `tick` alone: applied TIMER_PERIOD times from StepCount = 0, it keeps both timers for the first
TIMER_PERIOD - 1 times and decrements each exactly once at the last. And of the steps that apply it: k completed steps with
no host action between them (log 10) take StepCount on by k modulo TIMER_PERIOD (40_cycle.md section 2; D20: log 13;
StepRunsDecodedInstruction says in which step the timers are decremented). -/
def Obligations.TimersTickOncePerPeriod : Prop :=
  (∀ s : State, 1 ≤ s.config.timerPeriod → s.stepCount = 0 →
    (∀ k, k < s.config.timerPeriod →
      (tick^[k] s).dt = s.dt ∧ (tick^[k] s).st = s.st ∧ (tick^[k] s).stepCount = k) ∧
    (tick^[s.config.timerPeriod] s).dt = decrement s.dt ∧
    (tick^[s.config.timerPeriod] s).st = decrement s.st ∧
    (tick^[s.config.timerPeriod] s).stepCount = 0) ∧
  ∀ (s t : State) (k : Nat), s.stepCount < s.config.timerPeriod → Sys2Proof.core.run k s = .next t →
    t.stepCount = (s.stepCount + k) % s.config.timerPeriod

/-! ## Reset and host transactions -/

/-- State after construction, for every configuration: Stack, DT, ST, Mem, FB, PC, StepCount and Faulted in every case,
V and I with REG_RESET = ZERO; and that the reset state is such a construction (10_state.md section 11; every value but
Mem and PC is the spec's decision D7, D8, D20: log 3). -/
def Obligations.ResetValues : Prop :=
  (∀ c : Config,
    let s := State.construct c
    s.pc = 0x200 ∧ s.stack = [] ∧ s.dt = 0 ∧ s.st = 0 ∧ (∀ a, s.mem.read a = 0) ∧
      (∀ x y, s.fb.get x y = false) ∧ s.stepCount = 0 ∧ s.faulted = false ∧ s.config = c ∧
      (c.regReset = .zero → (∀ r, s.getV r = 0) ∧ s.i = 0)) ∧
  State.reset = State.construct Config.standard ∧ Config.standard.regReset = .zero

/-- The invariant holds after construction with any well-formed configuration, and at reset. -/
def Obligations.ConstructionMeetsInvariant : Prop :=
  (∀ c : Config, c.wellFormed = true → Inv (State.construct c)) ∧ Inv State.reset

/-- A host load that fits places its bytes, sets PC only for a ROM and changes nothing else; one that does not fit
changes nothing (70_reset_and_hazards.md section 2; D13: log 13). -/
def Obligations.HostLoadIsAllOrNothing : Prop :=
  ∀ (s : State) (offset : Nat) (data : List Byte) (rom : Bool),
    (offset + data.length > 4096 → s.load offset data rom = .error (.outOfBounds offset)) ∧
    (offset + data.length ≤ 4096 →
      ∃ t, s.load offset data rom = .ok t ∧
        (∀ k (h : k < data.length), t.mem.read (offset + k) = data[k]) ∧
        (rom = true → t.pc.toNat = offset) ∧
        KeepsRest { pc := rom, base := offset, len := data.length } s t)

/-- Boot places a font of 80 bytes at FONT_BASE and a ROM that fits at 0x200, which stands where the two overlap, and
leaves PC = 0x200 (70_reset_and_hazards.md section 3; D13, D18: log 2, log 13). -/
def Obligations.BootPlacesFontAndRom : Prop :=
  ∀ (c : Config) (font rom : List Byte), c.wellFormed = true → font.length = 80 → rom.length ≤ 3584 →
    ∃ s, boot c font rom = .ok s ∧ s.pc = 0x200 ∧ s.faulted = false ∧
      (∀ k (h : k < rom.length), s.mem.read (0x200 + k) = rom[k]) ∧
      (∀ k (h : k < font.length),
        ¬(0x200 ≤ c.fontBase.toNat + k ∧ c.fontBase.toNat + k < 0x200 + rom.length) →
        s.mem.read (c.fontBase.toNat + k) = font[k])

/-! ## The step -/

/-- When the bytes at PC decode to an instruction, a step is its `exec` on the state with PC advanced by 2; after a
completed body the frame is handed to the renderer, whose error ends the step, and then the step is counted and on the
TIMER_PERIOD-th both timers are decremented (40_cycle.md section 2; the cadence is D20, log 13; the frame port is the
model's field, log 8). -/
def Obligations.StepRunsDecodedInstruction : Prop :=
  ∀ (s : State) (i : Instr), s.faulted = false → s.pc.toNat ≤ 4094 →
    decodeWord (joinBytes (s.mem.read s.pc.toNat) (s.mem.read (s.pc.toNat + 1))) = .ok i →
    (∀ t, exec i { s with pc := s.pc + 2 } = .next t → t.renderAnswer = .ok →
      step s = .next { t with
        frame := some t.fb
        stepCount := if t.stepCount + 1 = t.config.timerPeriod then 0 else t.stepCount + 1
        dt := if t.stepCount + 1 = t.config.timerPeriod then (if t.dt = 0 then 0 else t.dt - 1) else t.dt
        st := if t.stepCount + 1 = t.config.timerPeriod then (if t.st = 0 then 0 else t.st - 1) else t.st }) ∧
    (∀ t e, exec i { s with pc := s.pc + 2 } = .next t → t.renderAnswer = .error e →
      step s = .fault (.renderError e)) ∧
    (∀ f, exec i { s with pc := s.pc + 2 } = .fault f → step s = .fault f)

/-- A fetch outside memory faults with the first address that is outside: PC, or PC + 1 when PC = 4095
(40_cycle.md section 2; D11: log 13). -/
def Obligations.FetchOutsideMemoryFaults : Prop :=
  ∀ s : State, s.faulted = false →
    (4096 ≤ s.pc.toNat → step s = .fault (.outOfBounds s.pc.toNat)) ∧
    (s.pc.toNat = 4095 → step s = .fault (.outOfBounds 4096))

/-- A fetched word that matches no pattern faults with UnknownInstruction and the word itself (30_encoding.md
section 5, 60_exceptions.md section 1; D3, D9: log 13). -/
def Obligations.UnknownWordFaults : Prop :=
  ∀ (s : State) (e : DecodeError), s.faulted = false → s.pc.toNat ≤ 4094 →
    decodeWord (joinBytes (s.mem.read s.pc.toNat) (s.mem.read (s.pc.toNat + 1))) = .error e →
    step s = .fault (.unknownInstruction (joinBytes (s.mem.read s.pc.toNat) (s.mem.read (s.pc.toNat + 1))))

/-- The step port: a completed step answers ok with its state; a faulting step answers that fault and nothing else, sets
Faulted, does not count in StepCount, leaves the host's inputs and the configuration, and leaves a core that performs no
step; the frame port shows the frame handed over in a step that ends in RenderError and the previous frame after any
other fault; a faulted core has no answer at all (60_exceptions.md section 1, 40_cycle.md sections 1 and 2; D8, D20, D28:
log 8, log 9). -/
def Obligations.FaultLatchesAndStopsTheCore : Prop :=
  (∀ s t, step s = .next t → ∀ r s', stepPort s r s' ↔ r = .ok ∧ s' = t) ∧
  (∀ s f, step s = .fault f →
    (∃ s', stepPort s (.fault f) s') ∧
    ∀ r s', stepPort s r s' → r = .fault f ∧ s'.faulted = true ∧ step s' = .refused .coreFaulted ∧
      s'.stepCount = s.stepCount ∧ s'.key = s.key ∧ s'.config = s.config ∧ s'.renderAnswer = s.renderAnswer ∧
      ((∀ e, f ≠ .renderError e) → s'.frame = s.frame)) ∧
  (∀ (s : State) (i : Instr) (t : State) (e : RenderErr), s.faulted = false → s.pc.toNat ≤ 4094 →
    decodeWord (joinBytes (s.mem.read s.pc.toNat) (s.mem.read (s.pc.toNat + 1))) = .ok i →
    exec i { s with pc := s.pc + 2 } = .next t → t.renderAnswer = .error e →
    ∀ r s', stepPort s r s' → r = .fault (.renderError e) ∧ s'.frame = some t.fb) ∧
  (∀ s, s.faulted = true → step s = .refused .coreFaulted ∧ ∀ r s', ¬stepPort s r s')

/-! ## Register and ALU instructions -/

/-- LD Vx, nn, the word 6xnn: `V[x] <- nn`, nothing else, VF only as destination (R190). -/
def Obligations.LoadImmediateSetsRegister : Prop :=
  ∀ (x : Reg) (nn : Byte) (s : State),
    decodeWord (0x6#4 ++ fieldOf x ++ nn) = .ok (.ldImm x nn) ∧
    ∃ t, exec (.ldImm x nn) s = .next t ∧ t.getV x = nn ∧ KeepsRest { v := [x] } s t

/-- LD Vx, Vy: `V[x] <- V[y]` and nothing else (43_alu.md section 3; the pattern 8xy0 is the spec's adoption D2,
log 11). -/
def Obligations.LoadRegisterCopies : Prop :=
  ∀ (x y : Reg) (s : State),
    decodeWord (0x8#4 ++ fieldOf x ++ fieldOf y ++ 0x0#4) = .ok (.ldReg x y) ∧
    ∃ t, exec (.ldReg x y) s = .next t ∧ t.getV x = s.getV y ∧ KeepsRest { v := [x] } s t

/-- `V[x] <- (V[x] + nn) mod 2^8`, VF unchanged unless it is the destination (43_alu.md
section 2; the pattern 7xnn is the spec's adoption D2, log 11). -/
def Obligations.AddImmediateWrapsWithoutFlag : Prop :=
  ∀ (x : Reg) (nn : Byte) (s : State),
    decodeWord (0x7#4 ++ fieldOf x ++ nn) = .ok (.addImm x nn) ∧
    ∃ t, exec (.addImm x nn) s = .next t ∧ (t.getV x).toNat = ((s.getV x).toNat + nn.toNat) % 256 ∧
      KeepsRest { v := [x] } s t

/-- OR, AND, XOR write V[x] bit by bit and no flag (43_alu.md section 3; that they leave VF alone is D32, log 13). -/
def Obligations.LogicWritesNoFlag : Prop :=
  ∀ (x y : Reg) (s : State),
    (∃ t, exec (.orReg x y) s = .next t ∧
      (∀ k, (t.getV x).getLsbD k = ((s.getV x).getLsbD k || (s.getV y).getLsbD k)) ∧
      KeepsRest { v := [x] } s t) ∧
    (∃ t, exec (.andReg x y) s = .next t ∧
      (∀ k, (t.getV x).getLsbD k = ((s.getV x).getLsbD k && (s.getV y).getLsbD k)) ∧
      KeepsRest { v := [x] } s t) ∧
    (∃ t, exec (.xorReg x y) s = .next t ∧
      (∀ k, (t.getV x).getLsbD k = ((s.getV x).getLsbD k ^^ (s.getV y).getLsbD k)) ∧
      KeepsRest { v := [x] } s t)

/-- ADD Vx, Vy: the sum mod 2^8 in V[x], then VF = 1 when the exact sum reaches 256 and 0 otherwise, the flag
standing when x = 0xF (43_alu.md section 3; the pattern 8xy4 is the spec's adoption D2, log 11). -/
def Obligations.AddSetsCarry : Prop :=
  ∀ (x y : Reg) (s : State),
    decodeWord (0x8#4 ++ fieldOf x ++ fieldOf y ++ 0x4#4) = .ok (.addReg x y) ∧
    ∃ t, exec (.addReg x y) s = .next t ∧
      (x ≠ Reg.vf → (t.getV x).toNat = ((s.getV x).toNat + (s.getV y).toNat) % 256) ∧
      t.getV Reg.vf = (if (s.getV x).toNat + (s.getV y).toNat ≥ 256 then 1 else 0) ∧
      KeepsRest { v := [x, Reg.vf] } s t

/-- SUB and SUBN: the difference mod 2^8 in V[x], then VF = 1 when the minuend is not below the subtrahend
(43_alu.md section 3; that equality gives 1 is D31, log 13). -/
def Obligations.SubtractionsSetNoBorrow : Prop :=
  ∀ (x y : Reg) (s : State),
    (∃ t, exec (.subReg x y) s = .next t ∧
      (x ≠ Reg.vf → (t.getV x).toNat = ((s.getV x).toNat + 256 - (s.getV y).toNat) % 256) ∧
      t.getV Reg.vf = (if (s.getV x).toNat ≥ (s.getV y).toNat then 1 else 0) ∧
      KeepsRest { v := [x, Reg.vf] } s t) ∧
    (∃ t, exec (.subn x y) s = .next t ∧
      (x ≠ Reg.vf → (t.getV x).toNat = ((s.getV y).toNat + 256 - (s.getV x).toNat) % 256) ∧
      t.getV Reg.vf = (if (s.getV y).toNat ≥ (s.getV x).toNat then 1 else 0) ∧
      KeepsRest { v := [x, Reg.vf] } s t)

/-- SHR and SHL shift the configured source by one into V[x] and put the bit shifted out in VF, for both settings of
SHIFT_SRC (43_alu.md section 3; the parameter is D14, log 13). -/
def Obligations.ShiftsMoveOneBit : Prop :=
  ∀ (x y : Reg) (s : State) (src : Byte),
    (s.config.shiftSrc = .vy ∧ src = s.getV y) ∨ (s.config.shiftSrc = .vx ∧ src = s.getV x) →
    (∃ t, exec (.shr x y) s = .next t ∧
      (x ≠ Reg.vf → (t.getV x).toNat = src.toNat / 2) ∧
      (t.getV Reg.vf).toNat = src.toNat % 2 ∧ KeepsRest { v := [x, Reg.vf] } s t) ∧
    (∃ t, exec (.shl x y) s = .next t ∧
      (x ≠ Reg.vf → (t.getV x).toNat = src.toNat * 2 % 256) ∧
      (t.getV Reg.vf).toNat = src.toNat / 128 ∧ KeepsRest { v := [x, Reg.vf] } s t)

/-- "the flag write always happens last and overwrites any prior VF value from the same instruction": with x = 0xF each
of the six flag writers leaves the flag in VF (10_state.md section 1). A shift's flag is that of the register SHIFT_SRC
selects (D14), equality gives no borrow (D31: log 13), sprite bits are ordered by D22 (log 12). -/
def Obligations.FlagIsWrittenLast : Prop :=
  ∀ (y : Reg) (s : State),
    (∃ t, exec (.addReg Reg.vf y) s = .next t ∧
      t.getV Reg.vf = if (s.getV Reg.vf).toNat + (s.getV y).toNat ≥ 256 then 1 else 0) ∧
    (∃ t, exec (.subReg Reg.vf y) s = .next t ∧
      t.getV Reg.vf = if (s.getV Reg.vf).toNat ≥ (s.getV y).toNat then 1 else 0) ∧
    (∃ t, exec (.subn Reg.vf y) s = .next t ∧
      t.getV Reg.vf = if (s.getV y).toNat ≥ (s.getV Reg.vf).toNat then 1 else 0) ∧
    (∃ t, exec (.shr Reg.vf y) s = .next t ∧ (t.getV Reg.vf).toNat = (s.shiftSource Reg.vf y).toNat % 2) ∧
    (∃ t, exec (.shl Reg.vf y) s = .next t ∧ (t.getV Reg.vf).toNat = (s.shiftSource Reg.vf y).toNat / 128) ∧
    (∀ n : Nibble, s.i.toNat + n.toNat ≤ 4096 → ∃ t, exec (.drw Reg.vf y n) s = .next t ∧
      t.getV Reg.vf = if (drawSprite (s.fb, false) ((s.getV Reg.vf).toNat % 64) ((s.getV y).toNat % 32)
        (s.mem.block s.i.toNat n.toNat)).2 then 1 else 0)

/-- RND writes the byte on the rnd port, masked by nn only with RND_AND_NN, for every byte the port may hold, and
consumes that draw (43_alu.md section 4; D17: log 6, log 13). -/
def Obligations.RandomWritesTheDraw : Prop :=
  ∀ (x : Reg) (nn : Byte) (s : State),
    ∃ t, exec (.rnd x nn) s = .next t ∧
      (s.config.rndAndNn = false → t.getV x = s.rnd) ∧
      (s.config.rndAndNn = true → t.getV x = s.rnd &&& nn) ∧
      t.draws = s.draws + 1 ∧ KeepsRest { v := [x], rnd := true } s t

/-! ## Display instructions -/

/-- CLS: every cell false, nothing else changed (41_display.md; the pattern 00E0 is the spec's adoption D2, log 11). -/
def Obligations.ClearScreenClearsEveryCell : Prop :=
  ∀ s : State,
    decodeWord 0x00E0 = .ok .cls ∧
    ∃ t, exec .cls s = .next t ∧ (∀ x y, t.fb.get x y = false) ∧ KeepsRest { fb := true } s t

/-- DRW with its sprite in memory: each cell is XORed with the sprite's pixel there, the origin wrapped and the body
clipped, and VF = 1 exactly when a set pixel falls on a lit cell (41_display.md; D12, D22, D32: log 12, log 13). -/
def Obligations.DrawXorsClippedSprite : Prop :=
  ∀ (x y : Reg) (n : Nibble) (s : State), s.i.toNat + n.toNat ≤ 4096 →
    ∃ t, exec (.drw x y n) s = .next t ∧
      (∀ (q : Fin 64) (r : Fin 32), t.fb.get q r =
        (s.fb.get q r ^^ spriteCovers ((s.getV x).toNat % 64) ((s.getV y).toNat % 32)
          (s.mem.block s.i.toNat n.toNat) q.val r.val)) ∧
      ((t.getV Reg.vf = 1 ∧ ∃ (q : Fin 64) (r : Fin 32), s.fb.get q r = true ∧
          spriteCovers ((s.getV x).toNat % 64) ((s.getV y).toNat % 32)
            (s.mem.block s.i.toNat n.toNat) q.val r.val = true) ∨
        (t.getV Reg.vf = 0 ∧ ∀ (q : Fin 64) (r : Fin 32), s.fb.get q r = true →
          spriteCovers ((s.getV x).toNat % 64) ((s.getV y).toNat % 32)
            (s.mem.block s.i.toNat n.toNat) q.val r.val = false)) ∧
      KeepsRest { v := [Reg.vf], fb := true } s t

/-- DRW with I + n > 4096 faults with OutOfBounds(I), also with n = 0 (41_display.md; D12: log 13). -/
def Obligations.DrawBeyondMemoryFaults : Prop :=
  ∀ (x y : Reg) (n : Nibble) (s : State), s.i.toNat + n.toNat > 4096 →
    exec (.drw x y n) s = .fault (.outOfBounds s.i.toNat)

/-- Drawing twice with x, y other than 0xF restores every cell; from a blank buffer the first draw leaves VF = 0, and the
second leaves VF = 1 exactly when the first lit a cell (the property of 41_display.md as C6 resolves it; D12, D22:
log 12, log 13). -/
def Obligations.DrawingTwiceRestores : Prop :=
  ∀ (x y : Reg) (n : Nibble) (s : State), x ≠ Reg.vf → y ≠ Reg.vf → s.i.toNat + n.toNat ≤ 4096 →
    ∃ t u, exec (.drw x y n) s = .next t ∧ exec (.drw x y n) t = .next u ∧
      (∀ q r, u.fb.get q r = s.fb.get q r) ∧
      ((∀ q r, s.fb.get q r = false) →
        t.getV Reg.vf = 0 ∧ (u.getV Reg.vf = 1 ↔ ∃ q r, t.fb.get q r = true))

/-- "a cell's value is the parity of all sprite pixels ever XORed onto it since the last clear" (R33): after any
sequence of sprites drawn from the cleared buffer (10_state.md section 6; a sprite's bits are ordered by D22, log 12). -/
def Obligations.CellIsParityOfItsPixels : Prop :=
  ∀ (sprites : List (Nat × Nat × List Byte)) (q : Fin 64) (r : Fin 32),
    (sprites.foldl (fun fb d => (drawSprite (fb, false) d.1 d.2.1 d.2.2).1) FrameBuffer.blank).get q r =
      decide (sprites.countP (fun d => spriteCovers d.1 d.2.1 d.2.2 q.val r.val) % 2 = 1)

/-! ## Control transfer -/

/-- JP: PC <- nnn and nothing else; a target of 4095 or more faults at the next fetch; a step on a jump to its own address
never raises UnknownInstruction and, when it completes, leaves PC, every register and memory unchanged, so that it finds
the same jump again: an endless loop (R161). -/
def Obligations.JumpSetsPc : Prop :=
  ∀ (nnn : Addr) (s : State),
    decodeWord (0x1#4 ++ nnn) = .ok (.jp nnn) ∧
    (∃ t, exec (.jp nnn) s = .next t ∧ t.pc.toNat = nnn.toNat ∧ KeepsRest { pc := true } s t ∧
      (4095 ≤ nnn.toNat → s.faulted = false → ∃ a, step t = .fault (.outOfBounds a))) ∧
    (s.pc.toNat = nnn.toNat →
      joinBytes (s.mem.read s.pc.toNat) (s.mem.read (s.pc.toNat + 1)) = 0x1#4 ++ nnn →
      (∀ w, step s ≠ .fault (.unknownInstruction w)) ∧
      ∀ t, step s = .next t →
        t.pc = s.pc ∧ t.v = s.v ∧ t.i = s.i ∧ t.stack = s.stack ∧ t.mem = s.mem)

/-- A jump to its own address runs for any number of steps without a fault, PC and every register unchanged, while the
renderer answers Ok throughout and the host does nothing between the steps: conditions of the model's ports (log 7,
log 10), not of R161. -/
def Obligations.JumpToItselfLoops : Prop :=
  ∀ (nnn : Addr) (s : State), s.faulted = false → s.renderAnswer = .ok → s.pc.toNat = nnn.toNat →
    s.pc.toNat ≤ 4094 → joinBytes (s.mem.read s.pc.toNat) (s.mem.read (s.pc.toNat + 1)) = 0x1#4 ++ nnn →
    ∀ k : Nat, ∃ t, Sys2Proof.core.run k s = .next t ∧
      t.pc = s.pc ∧ t.v = s.v ∧ t.i = s.i ∧ t.stack = s.stack ∧ t.faulted = false

/-- CALL: the return address (PC already advanced) is pushed and PC <- nnn, for every depth below a configured limit
and any depth without one; at the limit it faults (42_control.md; D19: log 13). -/
def Obligations.CallPushesReturnAddress : Prop :=
  ∀ (nnn : Addr) (s : State),
    (s.config.stackLimit ≠ some s.stack.length →
      ∃ t, exec (.call nnn) s = .next t ∧ t.pc.toNat = nnn.toNat ∧ t.stack = s.pc :: s.stack ∧
        KeepsRest { pc := true, stack := true } s t) ∧
    (s.config.stackLimit = some s.stack.length →
      exec (.call nnn) s = .fault (.invalidState .stackFull))

/-- RET: pops the most recent entry into PC, faults on an empty stack, and after a CALL restores the pushed address
and the stack (42_control.md; the pattern 00EE is the spec's adoption D2, log 11). -/
def Obligations.ReturnPopsIntoPc : Prop :=
  decodeWord 0x00EE = .ok .ret ∧
  (∀ s a rest, s.stack = a :: rest →
    ∃ t, exec .ret s = .next t ∧ t.pc = a ∧ t.stack = rest ∧ KeepsRest { pc := true, stack := true } s t) ∧
  (∀ s, s.stack = [] → exec .ret s = .fault (.invalidState .emptyStack)) ∧
  (∀ nnn s t, exec (.call nnn) s = .next t →
    ∃ u, exec .ret t = .next u ∧ u.pc = s.pc ∧ u.stack = s.stack)

/-- SE and SNE with an immediate: 2 more on PC when the condition holds, each the complement of the other
(42_control.md; the patterns 3xnn and 4xnn are the spec's adoption D2, log 11). -/
def Obligations.SkipsOnImmediate : Prop :=
  ∀ (x : Reg) (nn : Byte) (s : State),
    decodeWord (0x3#4 ++ fieldOf x ++ nn) = .ok (.seImm x nn) ∧
    decodeWord (0x4#4 ++ fieldOf x ++ nn) = .ok (.sneImm x nn) ∧
    (∃ t, exec (.seImm x nn) s = .next t ∧ t.pc = (if s.getV x = nn then s.pc + 2 else s.pc) ∧
      KeepsRest { pc := true } s t) ∧
    (∃ t, exec (.sneImm x nn) s = .next t ∧ t.pc = (if s.getV x = nn then s.pc else s.pc + 2) ∧
      KeepsRest { pc := true } s t)

/-- SE and SNE with two registers; x = y always skips SE and never skips SNE (42_control.md; D3: log 13). -/
def Obligations.SkipsOnRegisters : Prop :=
  ∀ (x y : Reg) (s : State),
    (∃ t, exec (.seReg x y) s = .next t ∧ t.pc = (if s.getV x = s.getV y then s.pc + 2 else s.pc) ∧
      KeepsRest { pc := true } s t) ∧
    (∃ t, exec (.sneReg x y) s = .next t ∧ t.pc = (if s.getV x = s.getV y then s.pc else s.pc + 2) ∧
      KeepsRest { pc := true } s t)

/-- JP V0: PC <- nnn plus the offset register, an exact sum that may leave memory, for both settings of
JUMP_OFFSET_REG (42_control.md; D15: log 13). -/
def Obligations.JumpWithOffsetIsExact : Prop :=
  ∀ (nnn : Addr) (s : State) (r : Reg),
    (s.config.jumpOffsetReg = .v0 ∧ r.val = 0) ∨
      (s.config.jumpOffsetReg = .vxOfNnn ∧ r.val = nnn.toNat / 256) →
    ∃ t, exec (.jpV0 nnn) s = .next t ∧ t.pc.toNat = nnn.toNat + (s.getV r).toNat ∧
      KeepsRest { pc := true } s t

/-! ## Index register and memory -/

/-- LD I: I <- zext_16(nnn) and nothing else (R235). -/
def Obligations.LoadIndexSetsI : Prop :=
  ∀ (nnn : Addr) (s : State),
    decodeWord (0xA#4 ++ nnn) = .ok (.ldI nnn) ∧
    ∃ t, exec (.ldI nnn) s = .next t ∧ t.i.toNat = nnn.toNat ∧ KeepsRest { i := true } s t

/-- ADD I wraps modulo 65536 and writes no flag; LD F gives FONT_BASE + 5 * V[x] with V[x] whole, which never wraps when
the font fits (44_index_memory.md; D18, D25, D32: log 2, log 13). -/
def Obligations.IndexArithmetic : Prop :=
  ∀ (x : Reg) (s : State),
    (∃ t, exec (.addI x) s = .next t ∧ t.i.toNat = (s.i.toNat + (s.getV x).toNat) % 65536 ∧
      KeepsRest { i := true } s t) ∧
    (∃ t, exec (.ldF x) s = .next t ∧
      t.i.toNat = (s.config.fontBase.toNat + (s.getV x).toNat * 5) % 65536 ∧
      (s.config.fontFits = true → t.i.toNat = s.config.fontBase.toNat + (s.getV x).toNat * 5) ∧
      KeepsRest { i := true } s t)

/-- LD B with its three bytes in memory: the decimal digits of V[x], hundreds at I, and no other byte
(44_index_memory.md; D11, D24: log 13). -/
def Obligations.BcdStoresThreeDigits : Prop :=
  ∀ (x : Reg) (s : State), s.i.toNat + 3 ≤ 4096 →
    ∃ t, exec (.ldB x) s = .next t ∧
      (t.mem.read s.i.toNat).toNat = (s.getV x).toNat / 100 ∧
      (t.mem.read (s.i.toNat + 1)).toNat = (s.getV x).toNat / 10 % 10 ∧
      (t.mem.read (s.i.toNat + 2)).toNat = (s.getV x).toNat % 10 ∧
      KeepsRest { base := s.indexAddr, len := 3 } s t

/-- LD [I] with its bytes in memory: V0..Vx inclusive at I..I+x, no other byte, I unchanged
(44_index_memory.md; D11, D24: log 13). -/
def Obligations.BlockStoreWritesRegisters : Prop :=
  ∀ (x : Reg) (s : State), s.i.toNat + (x.val + 1) ≤ 4096 →
    ∃ t, exec (.storeRegs x) s = .next t ∧
      (∀ r : Reg, r ≤ x → t.mem.read (s.i.toNat + r.val) = s.getV r) ∧
      KeepsRest { base := s.indexAddr, len := x.val + 1 } s t

/-- LD Vx,[I] with its bytes in memory: V0..Vx inclusive from I..I+x, no other register, I unchanged
(44_index_memory.md; D11, D24: log 13). -/
def Obligations.BlockLoadReadsRegisters : Prop :=
  ∀ (x : Reg) (s : State), s.i.toNat + (x.val + 1) ≤ 4096 →
    ∃ t, exec (.loadRegs x) s = .next t ∧
      (∀ r : Reg, r ≤ x → t.getV r = s.mem.read (s.i.toNat + r.val)) ∧
      KeepsRest { v := (List.finRange 16).filter (fun r => r ≤ x) } s t

/-- LD B, LD [I] and LD Vx,[I] fault at the lowest address of the access that is outside memory, without 16-bit wrap
(44_index_memory.md, 20_memory.md sections 2 and 4; D10, D11: log 13). -/
def Obligations.IndexedAccessFaultsAtFirstBadAddress : Prop :=
  ∀ (x : Reg) (s : State),
    (s.i.toNat + 3 > 4096 → exec (.ldB x) s = .fault (.outOfBounds (max s.i.toNat 4096))) ∧
    (s.i.toNat + (x.val + 1) > 4096 →
      exec (.storeRegs x) s = .fault (.outOfBounds (max s.i.toNat 4096)) ∧
      exec (.loadRegs x) s = .fault (.outOfBounds (max s.i.toNat 4096)))

/-! ## Keys and timers -/

/-- SKP and SKNP: a key value below 16 skips by that key's state; one of 16 or more faults with that value or counts as
not pressed, as KEY_OOB says, the same for both (45_keys_timers.md; D16: log 13). -/
def Obligations.SkipsOnKey : Prop :=
  ∀ (x : Reg) (s : State),
    (∀ h : (s.getV x).toNat < 16,
      (∃ t, exec (.skp x) s = .next t ∧
        t.pc = (if s.key[(s.getV x).toNat] = true then s.pc + 2 else s.pc) ∧ KeepsRest { pc := true } s t) ∧
      (∃ t, exec (.sknp x) s = .next t ∧
        t.pc = (if s.key[(s.getV x).toNat] = true then s.pc else s.pc + 2) ∧ KeepsRest { pc := true } s t)) ∧
    ((s.getV x).toNat ≥ 16 → s.config.keyOob = .notPressed →
      (∃ t, exec (.skp x) s = .next t ∧ t.pc = s.pc ∧ KeepsRest {} s t) ∧
      (∃ t, exec (.sknp x) s = .next t ∧ t.pc = s.pc + 2 ∧ KeepsRest { pc := true } s t)) ∧
    ((s.getV x).toNat ≥ 16 → s.config.keyOob = .fault →
      exec (.skp x) s = .fault (.outOfBounds (s.getV x).toNat) ∧
      exec (.sknp x) s = .fault (.outOfBounds (s.getV x).toNat))

/-- LD Vx, K: the lowest pressed key goes to V[x]; with none pressed the PC is back at this instruction and nothing
changes (45_keys_timers.md; D23: log 13). -/
def Obligations.WaitForKeyTakesLowest : Prop :=
  ∀ (x : Reg) (s : State),
    (∀ k : Fin 16, s.key[k.val] = true → (∀ j : Fin 16, j < k → s.key[j.val] = false) →
      ∃ t, exec (.ldVxK x) s = .next t ∧ (t.getV x).toNat = k.val ∧ KeepsRest { v := [x] } s t) ∧
    ((∀ k : Fin 16, s.key[k.val] = false) →
      (∃ t, exec (.ldVxK x) s = .next t ∧ t.pc = s.pc - 2 ∧ KeepsRest { pc := true } s t) ∧
      ∃ t, exec (.ldVxK x) { s with pc := s.pc + 2 } = .next t ∧ t.pc = s.pc)

/-- LD Vx, DT reads DT before the step's tick, and LD DT, Vx sets it, a tick in the same step then decrementing it
once (45_keys_timers.md; the patterns are D2, log 11, the tick D20, log 13). -/
def Obligations.DelayTimerReadAndSet : Prop :=
  ∀ (x : Reg) (s : State),
    (decodeWord (0xF#4 ++ fieldOf x ++ 0x07#8) = .ok (.ldVxDt x) ∧
      ∃ t, exec (.ldVxDt x) s = .next t ∧ t.getV x = s.dt ∧ KeepsRest { v := [x] } s t) ∧
    (decodeWord (0xF#4 ++ fieldOf x ++ 0x15#8) = .ok (.ldDtVx x) ∧
      ∃ t, exec (.ldDtVx x) s = .next t ∧ t.dt = s.getV x ∧ KeepsRest { dt := true } s t) ∧
    (s.renderAnswer = .ok → s.stepCount + 1 = s.config.timerPeriod →
      (∃ t, finishStep (exec (.ldVxDt x) s) = .next t ∧ t.getV x = s.dt ∧ t.dt.toNat = s.dt.toNat - 1) ∧
      ∃ t, finishStep (exec (.ldDtVx x) s) = .next t ∧ t.dt.toNat = (s.getV x).toNat - 1)

/-- LD ST, Vx sets ST and nothing else (45_keys_timers.md; that ST drives no output is D27). -/
def Obligations.SoundTimerSet : Prop :=
  ∀ (x : Reg) (s : State),
    ∃ t, exec (.ldStVx x) s = .next t ∧ t.st = s.getV x ∧ KeepsRest { st := true } s t

/-! ## Whole-machine rules -/

/-- "No instruction other than these three changes I" (R23). -/
def Obligations.OnlyThreeInstructionsChangeI : Prop :=
  ∀ (i : Instr) (s t : State), exec i s = .next t → t.i ≠ s.i →
    (∃ nnn, i = .ldI nnn) ∨ (∃ x, i = .addI x) ∨ (∃ x, i = .ldF x)

/-- An instruction changes only the registers it names as destination, VF among them where it writes a flag
(10_state.md section 1, 43_alu.md section 1; the complete list of flag writers is D32, log 13). -/
def Obligations.RegistersChangeOnlyWhereNamed : Prop :=
  ∀ (i : Instr) (s t : State), exec i s = .next t → ∀ r, r ∉ destRegs i → t.getV r = s.getV r

/-- Each remaining piece of state is written by the instructions the spec names for it and by no other: the stack by
CALL and RET, memory by LD B and LD [I], the frame buffer by CLS and DRW, DT and ST by their loads, a draw is consumed
by RND alone, and StepCount, Faulted, Key, the renderer's answer, the frame port and the configuration by none
(10_state.md sections 3 to 10, 20_memory.md section 3). -/
def Obligations.EachStateHasItsWriters : Prop :=
  ∀ (i : Instr) (s t : State), exec i s = .next t →
    (t.stack ≠ s.stack → i = .ret ∨ ∃ nnn, i = .call nnn) ∧
    (∀ a, t.mem.read a ≠ s.mem.read a → (∃ x, i = .ldB x) ∨ ∃ x, i = .storeRegs x) ∧
    (∀ q r, t.fb.get q r ≠ s.fb.get q r → i = .cls ∨ ∃ x y n, i = .drw x y n) ∧
    (t.dt ≠ s.dt → ∃ x, i = .ldDtVx x) ∧
    (t.st ≠ s.st → ∃ x, i = .ldStVx x) ∧
    (t.draws ≠ s.draws ∨ t.rnd ≠ s.rnd → ∃ x nn, i = .rnd x nn) ∧
    t.stepCount = s.stepCount ∧ t.faulted = s.faulted ∧ t.key = s.key ∧
    t.renderAnswer = s.renderAnswer ∧ t.frame = s.frame ∧ t.config = s.config

/-- An instruction leaves the advanced PC, or makes of it what its own rule says and nothing else: a skip and the wait for
a key exactly by their condition, JP V0 by the configured offset register (10_state.md section 2, 42_control.md,
45_keys_timers.md; no alignment is asked: D6; D15, D16, D23: log 13). -/
def Obligations.PcChangesOnlyAsListed : Prop :=
  ∀ (i : Instr) (s t : State), exec i s = .next t → PcRule i s t.pc

/-- An instruction body faults only where its rule says and with the fault it says; the arithmetic instructions raise
none; and no instruction is refused (60_exceptions.md section 1; D9, D11, D12, D16, D19: log 13). -/
def Obligations.FaultsOnlyWhereTheRulesSay : Prop :=
  ∀ (i : Instr) (s : State),
    (∀ f, exec i s = .fault f → FaultRule i s f) ∧ ∀ r, exec i s ≠ .refused r

/-- A step never changes the key vector, the configuration or the renderer's answer, runs only on a core that is not
faulted, leaves it not faulted, and hands over the frame buffer as the instruction left it (10_state.md sections 7
and 8, 40_cycle.md sections 1 and 2; the ports as fields are log 5, log 7, log 8). -/
def Obligations.StepKeepsWhatTheHostOwns : Prop :=
  ∀ s t : State, step s = .next t →
    t.key = s.key ∧ t.config = s.config ∧ t.renderAnswer = s.renderAnswer ∧
      s.faulted = false ∧ t.faulted = false ∧ t.frame = some t.fb

/-- No instruction reads ST: two states that differ only in ST take the same step but for ST (10_state.md section 4,
45_keys_timers.md). -/
def Obligations.SoundTimerIsReadByNoInstruction : Prop :=
  ∀ (s : State) (v : Byte),
    (∀ t, step s = .next t → ∃ u, step { s with st := v } = .next { t with st := u }) ∧
    (∀ f, step s = .fault f → step { s with st := v } = .fault f)

/-- StepCount is hidden: two states that differ only in StepCount take the same step but for StepCount and the timers
(10_state.md section 10; D20: log 13). -/
def Obligations.StepCountIsHidden : Prop :=
  ∀ (s : State) (n : Nat),
    (∀ t, step s = .next t →
      ∃ m dt st, step { s with stepCount := n } = .next { t with stepCount := m, dt := dt, st := st }) ∧
    (∀ f, step s = .fault f → step { s with stepCount := n } = .fault f)

/-- Every step keeps the invariant: canonical memory, StepCount in its range, the stack within its limit, PC and return
addresses within the bounds that keep PC from wrapping (10_state.md R26 is the spec's own inference; D5, D20: log 13). -/
def Obligations.StepKeepsInvariant : Prop :=
  ∀ s t : State, Inv s → step s = .next t → Inv t

/-- Every running state of every session (construction, steps, loads and host inputs in any order) meets the invariant, so
PC never exceeds 0x10FE and never wraps (10_state.md section 2; R26 is the spec's own inference; D5, D13: log 13). -/
def Obligations.ReachableStatesMeetInvariant : Prop :=
  ∀ (c : Config) (s : State), c.wellFormed = true → Reachable c s → Inv s
end

