-- ==== Sys2Proof/Laws/Decode.lean ====
section
/-! SUPPORT. What the field extractor reads from a word written field by field, and what a row's mask keeps of it. -/

namespace Sys2Proof

@[simp] theorem regOf_fieldOf (r : Reg) : regOf (fieldOf r) = r := rfl
@[simp] theorem fieldOf_regOf (b : Nibble) : fieldOf (regOf b) = b := rfl

/-! ## Fields as numbers (R10, R11) -/

/-- `a:b` is a * 2^(width of b) + b (R11). -/
theorem toNat_concat {n m : Nat} (a : BitVec n) (b : BitVec m) :
    (a ++ b).toNat = a.toNat * 2 ^ m + b.toNat := by
  rw [BitVec.toNat_append, ← Nat.shiftLeft_add_eq_or_of_lt b.isLt, Nat.shiftLeft_eq]

/-- The field of `len` bits from bit `lo` on (R10). -/
theorem toNat_field {n : Nat} (lo len : Nat) (a : BitVec n) :
    (a.extractLsb' lo len).toNat = a.toNat / 2 ^ lo % 2 ^ len := by
  rw [BitVec.extractLsb'_toNat, Nat.shiftRight_eq_div_pow]

/-! ## A word and its bytes (R58) -/

theorem joinBytes_hi_lo (w : Word) : joinBytes (hiByte w) (loByte w) = w := by
  apply BitVec.eq_of_toNat_eq
  have := w.isLt
  simp only [joinBytes, hiByte, loByte, toNat_concat, toNat_field]
  omega

@[simp] theorem hiByte_joinBytes (hi lo : Byte) : hiByte (joinBytes hi lo) = hi := by
  apply BitVec.eq_of_toNat_eq
  have := hi.isLt
  have := lo.isLt
  simp only [joinBytes, hiByte, toNat_concat, toNat_field]
  omega

@[simp] theorem loByte_joinBytes (hi lo : Byte) : loByte (joinBytes hi lo) = lo := by
  apply BitVec.eq_of_toNat_eq
  have := hi.isLt
  have := lo.isLt
  simp only [joinBytes, loByte, toNat_concat, toNat_field]
  omega

/-! ## The fields of a word written field by field (R81) -/

theorem parse_addr (op : Nibble) (nnn : Addr) :
    parse (hiByte (op ++ nnn)) (loByte (op ++ nnn)) =
      { opcode := op, x := nnn.extractLsb' 8 4, y := nnn.extractLsb' 4 4, n := nnn.extractLsb' 0 4,
        nn := nnn.extractLsb' 0 8, nnn := nnn } := by
  have := op.isLt
  have := nnn.isLt
  simp only [parse, Fields.mk.injEq]
  refine ⟨?_, ?_, ?_, ?_, ?_, ?_⟩ <;> apply BitVec.eq_of_toNat_eq <;>
    simp only [hiByte, loByte, toNat_concat, toNat_field] <;> omega

theorem parse_imm (op x : Nibble) (nn : Byte) :
    parse (hiByte (op ++ x ++ nn)) (loByte (op ++ x ++ nn)) =
      { opcode := op, x := x, y := nn.extractLsb' 4 4, n := nn.extractLsb' 0 4, nn := nn,
        nnn := x ++ nn } := by
  have := op.isLt
  have := x.isLt
  have := nn.isLt
  simp only [parse, Fields.mk.injEq]
  refine ⟨?_, ?_, ?_, ?_, ?_, ?_⟩ <;> apply BitVec.eq_of_toNat_eq <;>
    simp only [hiByte, loByte, toNat_concat, toNat_field] <;> omega

theorem parse_regs (op x y n : Nibble) :
    parse (hiByte (op ++ x ++ y ++ n)) (loByte (op ++ x ++ y ++ n)) =
      { opcode := op, x := x, y := y, n := n, nn := y ++ n, nnn := x ++ y ++ n } := by
  have := op.isLt
  have := x.isLt
  have := y.isLt
  have := n.isLt
  simp only [parse, Fields.mk.injEq]
  refine ⟨?_, ?_, ?_, ?_, ?_, ?_⟩ <;> apply BitVec.eq_of_toNat_eq <;>
    simp only [hiByte, loByte, toNat_concat, toNat_field] <;> omega

/-- The extractor always answers a well-formed record (R81, R82). -/
theorem parse_wellFormed (hi lo : Byte) : (parse hi lo).wellFormed = true := by
  have := hi.isLt
  have := lo.isLt
  have h : lo = lo.extractLsb' 4 4 ++ lo.extractLsb' 0 4 := by
    apply BitVec.eq_of_toNat_eq
    simp only [toNat_concat, toNat_field]
    omega
  simp only [Fields.wellFormed, Bool.and_eq_true, decide_eq_true_eq]
  exact ⟨h, rfl⟩

/-! ## Decoding a word -/

theorem decodeWord_ok_iff (w : Word) (i : Instr) :
    decodeWord w = .ok i ↔ select (parse (hiByte w) (loByte w)) = some i := by
  unfold decodeWord
  cases select (parse (hiByte w) (loByte w)) <;> simp

theorem decodeWord_error_iff (w : Word) (e : DecodeError) :
    decodeWord w = .error e ↔
      e = .unknownInstruction w ∧ select (parse (hiByte w) (loByte w)) = none := by
  unfold decodeWord
  cases select (parse (hiByte w) (loByte w)) <;> simp [eq_comm]

/-! ## What a row's mask keeps (R92) -/

theorem concat_and {n m : Nat} (a c : BitVec n) (b d : BitVec m) :
    (a ++ b) &&& (c ++ d) = (a &&& c) ++ (b &&& d) := by
  refine BitVec.eq_of_getLsbD_eq fun k _ => ?_
  simp only [BitVec.getLsbD_and, BitVec.getLsbD_append]
  split <;> rfl

theorem and_all4 (a : Nibble) : a &&& 0xF#4 = a := BitVec.and_allOnes

theorem and_all8 (a : Byte) : a &&& 0xFF#8 = a := BitVec.and_allOnes

theorem and_addr (op : Nibble) (nnn : Addr) :
    (op ++ nnn : Word) &&& 0xF000#16 = op ++ 0x000#12 := by
  rw [show (0xF000#16 : Word) = 0xF#4 ++ 0x000#12 by decide, concat_and]
  simp [and_all4]

theorem and_imm (op x : Nibble) (nn : Byte) :
    (op ++ x ++ nn : Word) &&& 0xF000#16 = op ++ 0x0#4 ++ 0x00#8 := by
  rw [show (0xF000#16 : Word) = 0xF#4 ++ 0x0#4 ++ 0x00#8 by decide, concat_and,
    concat_and]
  simp [and_all4]

theorem and_regs (op x y n : Nibble) :
    (op ++ x ++ y ++ n : Word) &&& 0xF00F#16 = op ++ 0x0#4 ++ 0x0#4 ++ n := by
  rw [show (0xF00F#16 : Word) = 0xF#4 ++ 0x0#4 ++ 0x0#4 ++ 0xF#4 by decide, concat_and,
    concat_and, concat_and]
  simp [and_all4]

theorem and_regs_any (op x y n : Nibble) :
    (op ++ x ++ y ++ n : Word) &&& 0xF000#16 = op ++ 0x0#4 ++ 0x0#4 ++ 0x0#4 := by
  rw [show (0xF000#16 : Word) = 0xF#4 ++ 0x0#4 ++ 0x0#4 ++ 0x0#4 by decide, concat_and,
    concat_and, concat_and]
  simp [and_all4]

theorem and_low (op x : Nibble) (low : Byte) :
    (op ++ x ++ low : Word) &&& 0xF0FF#16 = op ++ 0x0#4 ++ low := by
  rw [show (0xF0FF#16 : Word) = 0xF#4 ++ 0x0#4 ++ 0xFF#8 by decide, concat_and,
    concat_and]
  simp [and_all4, and_all8]

end Sys2Proof
end

