-- ==== Sys2Proof/Laws/State.lean ====
section
/-! SUPPORT. One lemma per field and per update of State, and the register file's read-after-write laws, so that no later
proof unfolds an update. -/

namespace Sys2Proof.Machine

/-! ## Fields of each update -/

@[simp] theorem setV_i (s : State) (r : Reg) (b : Byte) : (s.setV r b).i = s.i := rfl
@[simp] theorem setV_pc (s : State) (r : Reg) (b : Byte) : (s.setV r b).pc = s.pc := rfl
@[simp] theorem setV_stack (s : State) (r : Reg) (b : Byte) : (s.setV r b).stack = s.stack := rfl
@[simp] theorem setV_dt (s : State) (r : Reg) (b : Byte) : (s.setV r b).dt = s.dt := rfl
@[simp] theorem setV_st (s : State) (r : Reg) (b : Byte) : (s.setV r b).st = s.st := rfl
@[simp] theorem setV_mem (s : State) (r : Reg) (b : Byte) : (s.setV r b).mem = s.mem := rfl
@[simp] theorem setV_fb (s : State) (r : Reg) (b : Byte) : (s.setV r b).fb = s.fb := rfl
@[simp] theorem setV_stepCount (s : State) (r : Reg) (b : Byte) : (s.setV r b).stepCount = s.stepCount := rfl
@[simp] theorem setV_faulted (s : State) (r : Reg) (b : Byte) : (s.setV r b).faulted = s.faulted := rfl
@[simp] theorem setV_key (s : State) (r : Reg) (b : Byte) : (s.setV r b).key = s.key := rfl
@[simp] theorem setV_rnd (s : State) (r : Reg) (b : Byte) : (s.setV r b).rnd = s.rnd := rfl
@[simp] theorem setV_draws (s : State) (r : Reg) (b : Byte) : (s.setV r b).draws = s.draws := rfl
@[simp] theorem setV_renderAnswer (s : State) (r : Reg) (b : Byte) : (s.setV r b).renderAnswer = s.renderAnswer := rfl
@[simp] theorem setV_frame (s : State) (r : Reg) (b : Byte) : (s.setV r b).frame = s.frame := rfl
@[simp] theorem setV_config (s : State) (r : Reg) (b : Byte) : (s.setV r b).config = s.config := rfl

@[simp] theorem setFlag_i (s : State) (b : Bool) : (s.setFlag b).i = s.i := rfl
@[simp] theorem setFlag_pc (s : State) (b : Bool) : (s.setFlag b).pc = s.pc := rfl
@[simp] theorem setFlag_stack (s : State) (b : Bool) : (s.setFlag b).stack = s.stack := rfl
@[simp] theorem setFlag_dt (s : State) (b : Bool) : (s.setFlag b).dt = s.dt := rfl
@[simp] theorem setFlag_st (s : State) (b : Bool) : (s.setFlag b).st = s.st := rfl
@[simp] theorem setFlag_mem (s : State) (b : Bool) : (s.setFlag b).mem = s.mem := rfl
@[simp] theorem setFlag_fb (s : State) (b : Bool) : (s.setFlag b).fb = s.fb := rfl
@[simp] theorem setFlag_stepCount (s : State) (b : Bool) : (s.setFlag b).stepCount = s.stepCount := rfl
@[simp] theorem setFlag_faulted (s : State) (b : Bool) : (s.setFlag b).faulted = s.faulted := rfl
@[simp] theorem setFlag_key (s : State) (b : Bool) : (s.setFlag b).key = s.key := rfl
@[simp] theorem setFlag_rnd (s : State) (b : Bool) : (s.setFlag b).rnd = s.rnd := rfl
@[simp] theorem setFlag_draws (s : State) (b : Bool) : (s.setFlag b).draws = s.draws := rfl
@[simp] theorem setFlag_renderAnswer (s : State) (b : Bool) : (s.setFlag b).renderAnswer = s.renderAnswer := rfl
@[simp] theorem setFlag_frame (s : State) (b : Bool) : (s.setFlag b).frame = s.frame := rfl
@[simp] theorem setFlag_config (s : State) (b : Bool) : (s.setFlag b).config = s.config := rfl

@[simp] theorem setResultFlag_i (s : State) (x : Reg) (b : Byte) (f : Bool) : (s.setResultFlag x b f).i = s.i := rfl
@[simp] theorem setResultFlag_pc (s : State) (x : Reg) (b : Byte) (f : Bool) : (s.setResultFlag x b f).pc = s.pc := rfl
@[simp] theorem setResultFlag_stack (s : State) (x : Reg) (b : Byte) (f : Bool) : (s.setResultFlag x b f).stack = s.stack := rfl
@[simp] theorem setResultFlag_dt (s : State) (x : Reg) (b : Byte) (f : Bool) : (s.setResultFlag x b f).dt = s.dt := rfl
@[simp] theorem setResultFlag_st (s : State) (x : Reg) (b : Byte) (f : Bool) : (s.setResultFlag x b f).st = s.st := rfl
@[simp] theorem setResultFlag_mem (s : State) (x : Reg) (b : Byte) (f : Bool) : (s.setResultFlag x b f).mem = s.mem := rfl
@[simp] theorem setResultFlag_fb (s : State) (x : Reg) (b : Byte) (f : Bool) : (s.setResultFlag x b f).fb = s.fb := rfl
@[simp] theorem setResultFlag_stepCount (s : State) (x : Reg) (b : Byte) (f : Bool) : (s.setResultFlag x b f).stepCount = s.stepCount := rfl
@[simp] theorem setResultFlag_faulted (s : State) (x : Reg) (b : Byte) (f : Bool) : (s.setResultFlag x b f).faulted = s.faulted := rfl
@[simp] theorem setResultFlag_key (s : State) (x : Reg) (b : Byte) (f : Bool) : (s.setResultFlag x b f).key = s.key := rfl
@[simp] theorem setResultFlag_rnd (s : State) (x : Reg) (b : Byte) (f : Bool) : (s.setResultFlag x b f).rnd = s.rnd := rfl
@[simp] theorem setResultFlag_draws (s : State) (x : Reg) (b : Byte) (f : Bool) : (s.setResultFlag x b f).draws = s.draws := rfl
@[simp] theorem setResultFlag_renderAnswer (s : State) (x : Reg) (b : Byte) (f : Bool) : (s.setResultFlag x b f).renderAnswer = s.renderAnswer := rfl
@[simp] theorem setResultFlag_frame (s : State) (x : Reg) (b : Byte) (f : Bool) : (s.setResultFlag x b f).frame = s.frame := rfl
@[simp] theorem setResultFlag_config (s : State) (x : Reg) (b : Byte) (f : Bool) : (s.setResultFlag x b f).config = s.config := rfl

@[simp] theorem consumeDraw_v (s : State) : s.consumeDraw.v = s.v := rfl
@[simp] theorem consumeDraw_i (s : State) : s.consumeDraw.i = s.i := rfl
@[simp] theorem consumeDraw_pc (s : State) : s.consumeDraw.pc = s.pc := rfl
@[simp] theorem consumeDraw_stack (s : State) : s.consumeDraw.stack = s.stack := rfl
@[simp] theorem consumeDraw_dt (s : State) : s.consumeDraw.dt = s.dt := rfl
@[simp] theorem consumeDraw_st (s : State) : s.consumeDraw.st = s.st := rfl
@[simp] theorem consumeDraw_mem (s : State) : s.consumeDraw.mem = s.mem := rfl
@[simp] theorem consumeDraw_fb (s : State) : s.consumeDraw.fb = s.fb := rfl
@[simp] theorem consumeDraw_stepCount (s : State) : s.consumeDraw.stepCount = s.stepCount := rfl
@[simp] theorem consumeDraw_faulted (s : State) : s.consumeDraw.faulted = s.faulted := rfl
@[simp] theorem consumeDraw_key (s : State) : s.consumeDraw.key = s.key := rfl
@[simp] theorem consumeDraw_rnd (s : State) : s.consumeDraw.rnd = Config.freeDraw s.draws := rfl
@[simp] theorem consumeDraw_draws (s : State) : s.consumeDraw.draws = s.draws + 1 := rfl
@[simp] theorem consumeDraw_renderAnswer (s : State) : s.consumeDraw.renderAnswer = s.renderAnswer := rfl
@[simp] theorem consumeDraw_frame (s : State) : s.consumeDraw.frame = s.frame := rfl
@[simp] theorem consumeDraw_config (s : State) : s.consumeDraw.config = s.config := rfl

@[simp] theorem skipIf_v (s : State) (c : Bool) : (s.skipIf c).v = s.v := rfl
@[simp] theorem skipIf_i (s : State) (c : Bool) : (s.skipIf c).i = s.i := rfl
@[simp] theorem skipIf_pc (s : State) (c : Bool) : (s.skipIf c).pc = if c then s.pc + 2 else s.pc := rfl
@[simp] theorem skipIf_stack (s : State) (c : Bool) : (s.skipIf c).stack = s.stack := rfl
@[simp] theorem skipIf_dt (s : State) (c : Bool) : (s.skipIf c).dt = s.dt := rfl
@[simp] theorem skipIf_st (s : State) (c : Bool) : (s.skipIf c).st = s.st := rfl
@[simp] theorem skipIf_mem (s : State) (c : Bool) : (s.skipIf c).mem = s.mem := rfl
@[simp] theorem skipIf_fb (s : State) (c : Bool) : (s.skipIf c).fb = s.fb := rfl
@[simp] theorem skipIf_stepCount (s : State) (c : Bool) : (s.skipIf c).stepCount = s.stepCount := rfl
@[simp] theorem skipIf_faulted (s : State) (c : Bool) : (s.skipIf c).faulted = s.faulted := rfl
@[simp] theorem skipIf_key (s : State) (c : Bool) : (s.skipIf c).key = s.key := rfl
@[simp] theorem skipIf_rnd (s : State) (c : Bool) : (s.skipIf c).rnd = s.rnd := rfl
@[simp] theorem skipIf_draws (s : State) (c : Bool) : (s.skipIf c).draws = s.draws := rfl
@[simp] theorem skipIf_renderAnswer (s : State) (c : Bool) : (s.skipIf c).renderAnswer = s.renderAnswer := rfl
@[simp] theorem skipIf_frame (s : State) (c : Bool) : (s.skipIf c).frame = s.frame := rfl
@[simp] theorem skipIf_config (s : State) (c : Bool) : (s.skipIf c).config = s.config := rfl

@[simp] theorem advance_v (s : State) : (advance s).v = s.v := rfl
@[simp] theorem advance_i (s : State) : (advance s).i = s.i := rfl
@[simp] theorem advance_pc (s : State) : (advance s).pc = s.pc + 2 := rfl
@[simp] theorem advance_stack (s : State) : (advance s).stack = s.stack := rfl
@[simp] theorem advance_dt (s : State) : (advance s).dt = s.dt := rfl
@[simp] theorem advance_st (s : State) : (advance s).st = s.st := rfl
@[simp] theorem advance_mem (s : State) : (advance s).mem = s.mem := rfl
@[simp] theorem advance_fb (s : State) : (advance s).fb = s.fb := rfl
@[simp] theorem advance_stepCount (s : State) : (advance s).stepCount = s.stepCount := rfl
@[simp] theorem advance_faulted (s : State) : (advance s).faulted = s.faulted := rfl
@[simp] theorem advance_key (s : State) : (advance s).key = s.key := rfl
@[simp] theorem advance_rnd (s : State) : (advance s).rnd = s.rnd := rfl
@[simp] theorem advance_draws (s : State) : (advance s).draws = s.draws := rfl
@[simp] theorem advance_renderAnswer (s : State) : (advance s).renderAnswer = s.renderAnswer := rfl
@[simp] theorem advance_frame (s : State) : (advance s).frame = s.frame := rfl
@[simp] theorem advance_config (s : State) : (advance s).config = s.config := rfl

@[simp] theorem tick_v (s : State) : (tick s).v = s.v := rfl
@[simp] theorem tick_i (s : State) : (tick s).i = s.i := rfl
@[simp] theorem tick_pc (s : State) : (tick s).pc = s.pc := rfl
@[simp] theorem tick_stack (s : State) : (tick s).stack = s.stack := rfl
@[simp] theorem tick_dt (s : State) : (tick s).dt = if s.stepCount + 1 = s.config.timerPeriod then decrement s.dt else s.dt := rfl
@[simp] theorem tick_st (s : State) : (tick s).st = if s.stepCount + 1 = s.config.timerPeriod then decrement s.st else s.st := rfl
@[simp] theorem tick_mem (s : State) : (tick s).mem = s.mem := rfl
@[simp] theorem tick_fb (s : State) : (tick s).fb = s.fb := rfl
@[simp] theorem tick_stepCount (s : State) : (tick s).stepCount = if s.stepCount + 1 = s.config.timerPeriod then 0 else s.stepCount + 1 := rfl
@[simp] theorem tick_faulted (s : State) : (tick s).faulted = s.faulted := rfl
@[simp] theorem tick_key (s : State) : (tick s).key = s.key := rfl
@[simp] theorem tick_rnd (s : State) : (tick s).rnd = s.rnd := rfl
@[simp] theorem tick_draws (s : State) : (tick s).draws = s.draws := rfl
@[simp] theorem tick_renderAnswer (s : State) : (tick s).renderAnswer = s.renderAnswer := rfl
@[simp] theorem tick_frame (s : State) : (tick s).frame = s.frame := rfl
@[simp] theorem tick_config (s : State) : (tick s).config = s.config := rfl

@[simp] theorem handFrame_v (s : State) : (handFrame s).v = s.v := rfl
@[simp] theorem handFrame_i (s : State) : (handFrame s).i = s.i := rfl
@[simp] theorem handFrame_pc (s : State) : (handFrame s).pc = s.pc := rfl
@[simp] theorem handFrame_stack (s : State) : (handFrame s).stack = s.stack := rfl
@[simp] theorem handFrame_dt (s : State) : (handFrame s).dt = s.dt := rfl
@[simp] theorem handFrame_st (s : State) : (handFrame s).st = s.st := rfl
@[simp] theorem handFrame_mem (s : State) : (handFrame s).mem = s.mem := rfl
@[simp] theorem handFrame_fb (s : State) : (handFrame s).fb = s.fb := rfl
@[simp] theorem handFrame_stepCount (s : State) : (handFrame s).stepCount = s.stepCount := rfl
@[simp] theorem handFrame_faulted (s : State) : (handFrame s).faulted = s.faulted := rfl
@[simp] theorem handFrame_key (s : State) : (handFrame s).key = s.key := rfl
@[simp] theorem handFrame_rnd (s : State) : (handFrame s).rnd = s.rnd := rfl
@[simp] theorem handFrame_draws (s : State) : (handFrame s).draws = s.draws := rfl
@[simp] theorem handFrame_renderAnswer (s : State) : (handFrame s).renderAnswer = s.renderAnswer := rfl
@[simp] theorem handFrame_frame (s : State) : (handFrame s).frame = some s.fb := rfl
@[simp] theorem handFrame_config (s : State) : (handFrame s).config = s.config := rfl

@[simp] theorem latchFault_v (s : State) : s.latchFault.v = s.v := rfl
@[simp] theorem latchFault_i (s : State) : s.latchFault.i = s.i := rfl
@[simp] theorem latchFault_pc (s : State) : s.latchFault.pc = s.pc := rfl
@[simp] theorem latchFault_stack (s : State) : s.latchFault.stack = s.stack := rfl
@[simp] theorem latchFault_dt (s : State) : s.latchFault.dt = s.dt := rfl
@[simp] theorem latchFault_st (s : State) : s.latchFault.st = s.st := rfl
@[simp] theorem latchFault_mem (s : State) : s.latchFault.mem = s.mem := rfl
@[simp] theorem latchFault_fb (s : State) : s.latchFault.fb = s.fb := rfl
@[simp] theorem latchFault_stepCount (s : State) : s.latchFault.stepCount = s.stepCount := rfl
@[simp] theorem latchFault_faulted (s : State) : s.latchFault.faulted = true := rfl
@[simp] theorem latchFault_key (s : State) : s.latchFault.key = s.key := rfl
@[simp] theorem latchFault_rnd (s : State) : s.latchFault.rnd = s.rnd := rfl
@[simp] theorem latchFault_draws (s : State) : s.latchFault.draws = s.draws := rfl
@[simp] theorem latchFault_renderAnswer (s : State) : s.latchFault.renderAnswer = s.renderAnswer := rfl
@[simp] theorem latchFault_frame (s : State) : s.latchFault.frame = s.frame := rfl
@[simp] theorem latchFault_config (s : State) : s.latchFault.config = s.config := rfl

/-! ## Registers -/

@[simp] theorem getV_setV_same (s : State) (r : Reg) (b : Byte) : (s.setV r b).getV r = b := by
  simp [State.getV, State.setV]

theorem getV_setV_ne (s : State) {r q : Reg} (b : Byte) (h : q ≠ r) : (s.setV r b).getV q = s.getV q := by
  have : r.val ≠ q.val := fun e => h (Fin.ext e.symm)
  simp [State.getV, State.setV, Vector.getElem_set_ne _ _ this]

theorem getV_setV (s : State) (r q : Reg) (b : Byte) :
    (s.setV r b).getV q = if q = r then b else s.getV q := by
  by_cases h : q = r
  · subst h; simp
  · simp [h, getV_setV_ne s b h]

/-- Reading a register looks at the register file only. -/
theorem getV_congr {s t : State} (h : t.v = s.v) (r : Reg) : t.getV r = s.getV r := by
  simp [State.getV, h]

@[simp] theorem getV_setFlag_vf (s : State) (b : Bool) : (s.setFlag b).getV Reg.vf = flagByte b :=
  getV_setV_same s Reg.vf (flagByte b)

theorem getV_setFlag (s : State) (b : Bool) (q : Reg) :
    (s.setFlag b).getV q = if q = Reg.vf then flagByte b else s.getV q :=
  getV_setV s Reg.vf q (flagByte b)

/-- The flag is written last: it stands in VF even when VF is the destination (R21, R192). -/
theorem getV_setResultFlag (s : State) (x q : Reg) (b : Byte) (f : Bool) :
    (s.setResultFlag x b f).getV q =
      if q = Reg.vf then flagByte f else if q = x then b else s.getV q := by
  simp [State.setResultFlag, getV_setFlag, getV_setV]

@[simp] theorem getV_consumeDraw (s : State) (q : Reg) : s.consumeDraw.getV q = s.getV q := rfl
@[simp] theorem getV_skipIf (s : State) (c : Bool) (q : Reg) : (s.skipIf c).getV q = s.getV q := rfl
@[simp] theorem getV_advance (s : State) (q : Reg) : (advance s).getV q = s.getV q := rfl
@[simp] theorem getV_tick (s : State) (q : Reg) : (tick s).getV q = s.getV q := rfl

theorem regGet_lt (s : State) {k : Nat} (h : k < 16) : s.regGet k = .ok (s.getV ⟨k, h⟩) := by
  simp [State.regGet, h]

theorem regSet_lt (s : State) {k : Nat} (b : Byte) (h : k < 16) :
    s.regSet k b = .ok (s.setV ⟨k, h⟩ b) := by
  simp [State.regSet, h]

end Sys2Proof.Machine
end

