-- ==== Sys2Proof/Laws/Display.lean ====
section
/-! SUPPORT. The frame buffer and what drawing a sprite does to it, cell by cell. -/

namespace Sys2Proof.Machine

@[simp] theorem FrameBuffer.get_blank (x : Fin 64) (y : Fin 32) : FrameBuffer.blank.get x y = false := by
  simp [FrameBuffer.get, FrameBuffer.blank]

/-- Setting a cell changes that cell and no other. -/
theorem FrameBuffer.get_set (fb : FrameBuffer) (x q : Fin 64) (y r : Fin 32) (b : Bool) :
    (fb.set x y b).get q r = if q = x ∧ r = y then b else fb.get q r := by
  by_cases hr : r = y
  · subst hr
    by_cases hq : q = x
    · subst hq; simp [FrameBuffer.get, FrameBuffer.set]
    · have : x.val ≠ q.val := fun e => hq (Fin.ext e.symm)
      simp [FrameBuffer.get, FrameBuffer.set, hq, Vector.getElem_set_ne _ _ this]
  · have : y.val ≠ r.val := fun e => hr (Fin.ext e.symm)
    simp [FrameBuffer.get, FrameBuffer.set, hr, Vector.getElem_set_ne _ _ this]

/-- Two frame buffers with the same cells are equal. -/
theorem FrameBuffer.ext_get {f g : FrameBuffer} (h : ∀ x y, f.get x y = g.get x y) : f = g := by
  cases f; cases g
  congr 1
  ext y hy x hx
  exact h ⟨x, hx⟩ ⟨y, hy⟩

/-- One pixel: its cell is inverted when the bit is set and it is on screen. -/
theorem drawPixel_get (p : FrameBuffer × Bool) (px py : Nat) (bit : Bool) (x : Fin 64) (y : Fin 32) :
    (drawPixel p px py bit).1.get x y =
      (p.1.get x y ^^ (bit && decide (x.val = px ∧ y.val = py))) := by
  unfold drawPixel
  by_cases h : px < 64 ∧ py < 32
  · cases bit
    · simp [h]
    · simp only [h, and_self, dif_pos, if_true, FrameBuffer.get_set, Bool.true_and]
      by_cases he : x.val = px ∧ y.val = py
      · obtain ⟨rfl, rfl⟩ := he
        simp
      · have : ¬(x = ⟨px, h.1⟩ ∧ y = ⟨py, h.2⟩) := by
          rintro ⟨rfl, rfl⟩; exact he ⟨rfl, rfl⟩
        simp [this, he]
  · have he : ¬(x.val = px ∧ y.val = py) := by
      rintro ⟨rfl, rfl⟩; exact h ⟨x.2, y.2⟩
    simp [h, he]

/-- One pixel: a collision is an on-screen set bit over a lit cell. -/
theorem drawPixel_collision (p : FrameBuffer × Bool) (px py : Nat) (bit : Bool) :
    (drawPixel p px py bit).2 = true ↔
      p.2 = true ∨ (bit = true ∧ ∃ (x : Fin 64) (y : Fin 32), x.val = px ∧ y.val = py ∧ p.1.get x y = true) := by
  unfold drawPixel
  by_cases h : px < 64 ∧ py < 32
  · cases bit
    · simp [h]
    · simp only [h, and_self, dif_pos, if_true, Bool.or_eq_true, true_and]
      constructor
      · rintro (h1 | h1)
        · exact .inl h1
        · exact .inr ⟨⟨px, h.1⟩, ⟨py, h.2⟩, rfl, rfl, h1⟩
      · rintro (h1 | ⟨x, y, rfl, rfl, h1⟩)
        · exact .inl h1
        · exact .inr h1
  · simp only [h, dif_neg, not_false_eq_true]
    constructor
    · exact .inl
    · rintro (h1 | ⟨-, x, y, rfl, rfl, -⟩)
      · exact h1
      · exact absurd ⟨x.2, y.2⟩ h

/-- Whether row `py` of a sprite with byte `b` and first column `x0` has a set bit at (x, y). -/
def rowPixel (x0 py : Nat) (b : Byte) (x y : Nat) : Bool :=
  decide (y = py) && decide (x0 ≤ x ∧ x < x0 + 8) && spriteBit b (x - x0)

theorem drawCols_get (p : FrameBuffer × Bool) (x0 py : Nat) (b : Byte) (n : Nat) (x : Fin 64) (y : Fin 32) :
    ((List.range n).foldl (fun q c => drawPixel q (x0 + c) py (spriteBit b c)) p).1.get x y =
      (p.1.get x y ^^
        (decide (y.val = py) && decide (x0 ≤ x.val ∧ x.val < x0 + n) && spriteBit b (x.val - x0))) := by
  induction n with
  | zero =>
    have h0 : ¬(x0 ≤ x.val ∧ x.val < x0 + 0) := by omega
    rw [decide_eq_false h0]
    simp
  | succ n ih =>
    rw [List.range_succ, List.foldl_append, List.foldl_cons, List.foldl_nil, drawPixel_get, ih]
    by_cases hx : x.val = x0 + n
    · have h1 : ¬(x0 ≤ x.val ∧ x.val < x0 + n) := by omega
      have h2 : x0 ≤ x.val ∧ x.val < x0 + (n + 1) := by omega
      have h3 : x.val - x0 = n := by omega
      rw [decide_eq_false h1, decide_eq_true h2, h3, Bool.decide_and]
      simp [hx, Bool.and_comm]
    · have h1 : (x0 ≤ x.val ∧ x.val < x0 + (n + 1)) ↔ (x0 ≤ x.val ∧ x.val < x0 + n) := by omega
      simp [hx, h1]

theorem drawCols_collision (p : FrameBuffer × Bool) (x0 py : Nat) (b : Byte) (n : Nat) :
    ((List.range n).foldl (fun q c => drawPixel q (x0 + c) py (spriteBit b c)) p).2 = true ↔
      p.2 = true ∨ ∃ (x : Fin 64) (y : Fin 32), y.val = py ∧ (x0 ≤ x.val ∧ x.val < x0 + n) ∧
        spriteBit b (x.val - x0) = true ∧ p.1.get x y = true := by
  induction n with
  | zero =>
    simp only [List.range_zero, List.foldl_nil]
    constructor
    · exact .inl
    · rintro (h | ⟨x, y, -, h, -⟩)
      · exact h
      · omega
  | succ n ih =>
    rw [List.range_succ, List.foldl_append, List.foldl_cons, List.foldl_nil, drawPixel_collision, ih]
    constructor
    · rintro ((h | ⟨x, y, hy, hx, hb, hg⟩) | ⟨hb, x, y, hx, hy, hg⟩)
      · exact .inl h
      · exact .inr ⟨x, y, hy, by omega, hb, hg⟩
      · have h3 : x.val - x0 = n := by omega
        rw [drawCols_get] at hg
        have h1 : ¬(x0 ≤ x.val ∧ x.val < x0 + n) := by omega
        simp only [h1, decide_false, Bool.and_false, Bool.false_and, Bool.xor_false] at hg
        exact .inr ⟨x, y, hy, by omega, by rw [h3]; exact hb, hg⟩
    · rintro (h | ⟨x, y, hy, hx, hb, hg⟩)
      · exact .inl (.inl h)
      · by_cases hn : x.val < x0 + n
        · exact .inl (.inr ⟨x, y, hy, ⟨hx.1, hn⟩, hb, hg⟩)
        · have h3 : x.val - x0 = n := by omega
          refine .inr ⟨by rw [← h3]; exact hb, x, y, by omega, hy, ?_⟩
          rw [drawCols_get]
          have h1 : ¬(x0 ≤ x.val ∧ x.val < x0 + n) := by omega
          simp only [h1, decide_false, Bool.and_false, Bool.false_and, Bool.xor_false]
          exact hg

/-- One row: every cell is XORed with the row's pixel there. -/
theorem drawRow_get (p : FrameBuffer × Bool) (x0 py : Nat) (b : Byte) (x : Fin 64) (y : Fin 32) :
    (drawRow p x0 py b).1.get x y = (p.1.get x y ^^ rowPixel x0 py b x.val y.val) :=
  drawCols_get p x0 py b 8 x y

/-- One row: a collision is a set pixel over a lit cell. -/
theorem drawRow_collision (p : FrameBuffer × Bool) (x0 py : Nat) (b : Byte) :
    (drawRow p x0 py b).2 = true ↔
      p.2 = true ∨ ∃ (x : Fin 64) (y : Fin 32), rowPixel x0 py b x.val y.val = true ∧ p.1.get x y = true := by
  unfold drawRow
  rw [drawCols_collision]
  simp [rowPixel, and_assoc]

theorem spriteCovers_cons (x0 y0 : Nat) (b : Byte) (bs : List Byte) (x y : Nat) :
    spriteCovers x0 y0 (b :: bs) x y = (rowPixel x0 y0 b x y || spriteCovers x0 (y0 + 1) bs x y) := by
  unfold spriteCovers rowPixel spriteBit
  by_cases hy : y = y0
  · subst hy
    simp
  · by_cases hin : y0 + 1 ≤ y ∧ y < y0 + 1 + bs.length
    · have h2 : y0 ≤ y ∧ y < y0 + (b :: bs).length := by simp; omega
      have h3 : y - y0 = (y - (y0 + 1)) + 1 := by omega
      rw [h3]
      simp only [hy, hin, h2, List.getD_cons_succ]
      simp
    · have h2 : ¬(y0 ≤ y ∧ y < y0 + (b :: bs).length) := by simp; omega
      simp only [hy, hin, h2]
      simp

theorem spriteCovers_row_disjoint (x0 y0 : Nat) (b : Byte) (bs : List Byte) (x y : Nat)
    (h : rowPixel x0 y0 b x y = true) : spriteCovers x0 (y0 + 1) bs x y = false := by
  have hy : y = y0 := by
    unfold rowPixel at h
    by_contra hne
    simp [hne] at h
  have h1 : ¬(y0 + 1 ≤ y ∧ y < y0 + 1 + bs.length) := by omega
  rw [spriteCovers, decide_eq_false h1]
  simp

/-- A sprite: every cell is XORed with the sprite's pixel there (R141). -/
theorem drawSprite_get (p : FrameBuffer × Bool) (x0 y0 : Nat) (sprite : List Byte) (x : Fin 64) (y : Fin 32) :
    (drawSprite p x0 y0 sprite).1.get x y = (p.1.get x y ^^ spriteCovers x0 y0 sprite x.val y.val) := by
  induction sprite generalizing p y0 with
  | nil =>
    have h0 : ¬(y0 ≤ y.val ∧ y.val < y0 + ([] : List Byte).length) := by simp
    rw [spriteCovers, decide_eq_false h0]
    simp [drawSprite]
  | cons b bs ih =>
    rw [drawSprite, ih, drawRow_get, spriteCovers_cons]
    cases hr : rowPixel x0 y0 b x.val y.val
    · simp
    · simp [spriteCovers_row_disjoint x0 y0 b bs x.val y.val hr]

/-- A sprite: a collision is a set pixel, on screen, over a cell that was lit before the draw (R143). -/
theorem drawSprite_collision (p : FrameBuffer × Bool) (x0 y0 : Nat) (sprite : List Byte) :
    (drawSprite p x0 y0 sprite).2 = true ↔
      p.2 = true ∨
        ∃ (x : Fin 64) (y : Fin 32), spriteCovers x0 y0 sprite x.val y.val = true ∧ p.1.get x y = true := by
  induction sprite generalizing p y0 with
  | nil =>
    simp only [drawSprite]
    constructor
    · exact .inl
    · rintro (h | ⟨x, y, h, -⟩)
      · exact h
      · simp [spriteCovers] at h
  | cons b bs ih =>
    rw [drawSprite, ih, drawRow_collision]
    constructor
    · rintro ((h | ⟨x, y, hr, hg⟩) | ⟨x, y, hc, hg⟩)
      · exact .inl h
      · exact .inr ⟨x, y, by rw [spriteCovers_cons]; simp [hr], hg⟩
      · rw [drawRow_get] at hg
        have hr : rowPixel x0 y0 b x.val y.val = false := by
          by_contra hne
          have := spriteCovers_row_disjoint x0 y0 b bs x.val y.val (by simpa using hne)
          simp [this] at hc
        exact .inr ⟨x, y, by rw [spriteCovers_cons]; simp [hc], by simpa [hr] using hg⟩
    · rintro (h | ⟨x, y, hc, hg⟩)
      · exact .inl (.inl h)
      · rw [spriteCovers_cons] at hc
        cases hr : rowPixel x0 y0 b x.val y.val
        · exact .inr ⟨x, y, by simpa [hr] using hc, by rw [drawRow_get]; simp [hr, hg]⟩
        · exact .inl (.inr ⟨x, y, hr, hg⟩)

end Sys2Proof.Machine
end

