-- ==== Sys2Proof/Laws/Memory.lean ====
section
/-! SUPPORT. Memory: read after write, the canonical form, and what each multi-byte operation does. -/

namespace Sys2Proof.Machine

/-! ## Reading after a write -/

theorem Memory.read_filter_ne (m : Memory) {a q : Nat} (h : q ≠ a) :
    Memory.read (m.filter (fun c => c.1 ≠ a)) q = m.read q := by
  induction m with
  | nil => rfl
  | cons c rest ih =>
    by_cases hc : c.1 = a
    · have : c.1 ≠ q := by omega
      simp_all [Memory.read]
    · by_cases hq : c.1 = q <;> simp_all [Memory.read]

theorem Memory.read_filter_same (m : Memory) (a : Nat) :
    Memory.read (m.filter (fun c => c.1 ≠ a)) a = Memory.unlisted := by
  induction m with
  | nil => rfl
  | cons c rest ih =>
    by_cases hc : c.1 = a
    · simp_all
    · simp_all [Memory.read]

theorem Memory.read_insert (c : Host.Cell) (m : Memory) (q : Nat) :
    (∀ d ∈ m, d.1 ≠ c.1) → Memory.read (m.insert c) q = if c.1 = q then c.2 else m.read q := by
  induction m with
  | nil => intro _; simp [Memory.insert, Memory.read]
  | cons d rest ih =>
    intro h
    have hd : d.1 ≠ c.1 := h d (by simp)
    have hrest : ∀ e ∈ rest, e.1 ≠ c.1 := fun e he => h e (by simp [he])
    by_cases hlt : c.1 < d.1
    · simp [Memory.insert, hlt, Memory.read]
    · by_cases hq : d.1 = q
      · have : c.1 ≠ q := by omega
        rw [Memory.insert, if_neg hlt]
        simp [Memory.read, hq, this]
      · simp [Memory.insert, hlt, Memory.read, hq, ih hrest]

/-- A write sets the byte it addresses and no other, whatever list the memory is. -/
theorem Memory.read_write (m : Memory) (a q : Nat) (b : Byte) :
    (m.write a b).read q = if q = a then b else m.read q := by
  unfold Memory.write
  by_cases hb : b = Memory.unlisted
  · by_cases hq : q = a
    · subst hq; simpa [hb] using Memory.read_filter_same m q
    · simpa [hb, hq] using Memory.read_filter_ne m hq
  · have hne : ∀ d ∈ m.filter (fun c => c.1 ≠ a), d.1 ≠ a := by
      intro d hd; simpa using (List.mem_filter.1 hd).2
    simp only [hb, if_false]
    rw [Memory.read_insert (a, b) _ q hne]
    by_cases hq : q = a
    · simp [hq]
    · have : a ≠ q := fun e => hq e.symm
      simpa [hq, this] using Memory.read_filter_ne m hq

@[simp] theorem Memory.read_write_same (m : Memory) (a : Nat) (b : Byte) :
    (m.write a b).read a = b := by
  simp [Memory.read_write]

theorem Memory.read_write_ne (m : Memory) {a q : Nat} (b : Byte) (h : q ≠ a) :
    (m.write a b).read q = m.read q := by
  simp [Memory.read_write, h]

/-- Bytes copied to `a`, `a + 1`, … are read back there, and every other address reads as before. -/
theorem Memory.read_writeBytes (m : Memory) (a q : Nat) (bs : List Byte) :
    (m.writeBytes a bs).read q =
      if h : a ≤ q ∧ q < a + bs.length then bs[q - a] else m.read q := by
  induction bs generalizing m a with
  | nil =>
    have : ¬(a ≤ q ∧ q < a + ([] : List Byte).length) := by simp
    rw [dif_neg this]
    rfl
  | cons b bs ih =>
    simp only [Memory.writeBytes, ih, List.length_cons]
    by_cases hq : q = a
    · subst hq
      simp
    · by_cases hin : a + 1 ≤ q ∧ q < a + 1 + bs.length
      · have h2 : a ≤ q ∧ q < a + (bs.length + 1) := by omega
        have h3 : q - a = (q - (a + 1)) + 1 := by omega
        simp [hin, h2, h3]
      · have h2 : ¬(a ≤ q ∧ q < a + (bs.length + 1)) := by omega
        simp only [hin, h2, dif_neg, not_false_eq_true]
        exact Memory.read_write_ne m b hq

/-! ## The canonical form -/

/-- Reset memory, with nothing listed, is canonical. -/
theorem Memory.wf_nil : Memory.wf [] := by decide

theorem Memory.mem_insert {c d : Host.Cell} {m : Memory} (h : d ∈ m.insert c) : d = c ∨ d ∈ m := by
  induction m with
  | nil => simpa [Memory.insert] using h
  | cons e rest ih =>
    by_cases hlt : c.1 < e.1
    · simpa [Memory.insert, hlt] using h
    · simp only [Memory.insert, hlt, if_false, List.mem_cons] at h
      rcases h with rfl | h
      · simp
      · rcases ih h with rfl | h <;> simp [*]

theorem Memory.pairwise_insert (c : Host.Cell) (m : Memory) (hne : ∀ d ∈ m, d.1 ≠ c.1)
    (h : m.Pairwise (fun a b => a.1 < b.1)) :
    (m.insert c).Pairwise (fun a b => a.1 < b.1) := by
  induction m with
  | nil => simp [Memory.insert]
  | cons d rest ih =>
    have hd := List.pairwise_cons.1 h
    by_cases hlt : c.1 < d.1
    · simp only [Memory.insert, hlt, if_true]
      refine List.pairwise_cons.2 ⟨fun e he => ?_, h⟩
      rcases List.mem_cons.1 he with rfl | he
      · exact hlt
      · exact lt_trans hlt (hd.1 e he)
    · simp only [Memory.insert, hlt, if_false]
      refine List.pairwise_cons.2 ⟨fun e he => ?_, ih (fun e he => hne e (by simp [he])) hd.2⟩
      rcases Memory.mem_insert he with rfl | he
      · have := hne d (by simp); omega
      · exact hd.1 e he

/-- A write inside the address space keeps the canonical form. -/
theorem Memory.wf_write {m : Memory} (h : m.wf) {a : Nat} (ha : a < 4096) (b : Byte) :
    (m.write a b).wf := by
  have hf : (m.filter (fun c => c.1 ≠ a)).Pairwise (fun a b => a.1 < b.1) := h.1.filter _
  unfold Memory.write
  by_cases hb : b = Memory.unlisted
  · simp only [hb, if_true]
    exact ⟨hf, fun c hc => h.2 c (List.mem_filter.1 hc).1⟩
  · simp only [hb, if_false]
    refine ⟨Memory.pairwise_insert _ _ (fun d hd => by simpa using (List.mem_filter.1 hd).2) hf, ?_⟩
    intro c hc
    rcases Memory.mem_insert hc with rfl | hc
    · exact ⟨ha, hb⟩
    · exact h.2 c (List.mem_filter.1 hc).1

theorem Memory.wf_writeBytes {m : Memory} (h : m.wf) {a : Nat} {bs : List Byte}
    (ha : a + bs.length ≤ 4096) : (m.writeBytes a bs).wf := by
  induction bs generalizing m a with
  | nil => exact h
  | cons b bs ih =>
    simp only [List.length_cons] at ha
    exact ih (Memory.wf_write h (by omega) b) (by omega)

/-! ## The access primitives -/

theorem memRead_lt (s : State) {a : Nat} (h : a < 4096) : s.memRead a = .ok (s.mem.read a) := by
  simp [State.memRead, show ¬4096 ≤ a by omega]

theorem memRead_ge (s : State) {a : Nat} (h : 4096 ≤ a) : s.memRead a = .error (.outOfBounds a) := by
  simp [State.memRead, h]

theorem memWrite_lt (s : State) {a : Nat} (b : Byte) (h : a < 4096) :
    s.memWrite a b = .ok { s with mem := s.mem.write a b } := by
  simp [State.memWrite, show ¬4096 ≤ a by omega]

theorem memWrite_ge (s : State) {a : Nat} (b : Byte) (h : 4096 ≤ a) :
    s.memWrite a b = .error (.outOfBounds a) := by
  simp [State.memWrite, h]

@[simp] theorem Memory.length_block (m : Memory) (a len : Nat) : (m.block a len).length = len := by
  induction len generalizing a with
  | zero => rfl
  | succ n ih => simp [Memory.block, ih]

theorem Memory.getElem_block (m : Memory) (a len k : Nat) (h : k < (m.block a len).length) :
    (m.block a len)[k] = m.read (a + k) := by
  induction len generalizing a k with
  | zero => simp at h
  | succ n ih =>
    cases k with
    | zero => rfl
    | succ k =>
      have := ih (a + 1) k (by simpa using h)
      simpa [Memory.block, Nat.add_comm 1 k, Nat.add_assoc] using this

/-! ## Multi-byte operations -/

/-- Byte writes that all fit give exactly the copied memory. -/
theorem memWriteBytes_ok (s : State) (a : Nat) (bs : List Byte) (h : a + bs.length ≤ 4096) :
    s.memWriteBytes a bs = .ok { s with mem := s.mem.writeBytes a bs } := by
  induction bs generalizing s a with
  | nil => rfl
  | cons b bs ih =>
    simp only [List.length_cons] at h
    simp [State.memWriteBytes, memWrite_lt s b (show a < 4096 by omega),
      ih { s with mem := s.mem.write a b } (a + 1) (by omega), Memory.writeBytes]

/-- Byte writes that do not all fit fault at the first address outside memory (R59). -/
theorem memWriteBytes_error (s : State) (a : Nat) (bs : List Byte) (hne : bs ≠ [])
    (h : 4096 < a + bs.length) : s.memWriteBytes a bs = .error (.outOfBounds (max a 4096)) := by
  induction bs generalizing s a with
  | nil => exact absurd rfl hne
  | cons b bs ih =>
    simp only [List.length_cons] at h
    by_cases ha : a < 4096
    · have hbs : bs ≠ [] := by
        intro e; subst e; simp at h; omega
      have hm : max (a + 1) 4096 = max a 4096 := by omega
      simp [State.memWriteBytes, memWrite_lt s b ha, ih _ (a + 1) hbs (by omega), hm]
    · have hm : max a 4096 = a := by omega
      simp [State.memWriteBytes, memWrite_ge s b (show 4096 ≤ a by omega), hm]

/-- Byte writes that complete did fit, and changed memory only (R59). -/
theorem memWriteBytes_inv {s t : State} {a : Nat} {bs : List Byte} (hne : bs ≠ [])
    (h : s.memWriteBytes a bs = .ok t) :
    a + bs.length ≤ 4096 ∧ t = { s with mem := s.mem.writeBytes a bs } := by
  by_cases hfit : a + bs.length ≤ 4096
  · rw [memWriteBytes_ok s a bs hfit] at h
    exact ⟨hfit, (Except.ok.inj h).symm⟩
  · rw [memWriteBytes_error s a bs hne (by omega)] at h
    cases h

/-- The values V[first], …, V[first+count-1] of a state. -/
def State.regsFrom (s : State) (first : Nat) : Nat → List Byte
  | 0 => []
  | count + 1 => (if h : first < 16 then s.getV ⟨first, h⟩ else 0) :: s.regsFrom (first + 1) count

@[simp] theorem length_regsFrom (s : State) (first count : Nat) :
    (s.regsFrom first count).length = count := by
  induction count generalizing first with
  | zero => rfl
  | succ n ih => simp [State.regsFrom, ih]

theorem regsFrom_congr {s t : State} (h : t.v = s.v) (first count : Nat) :
    t.regsFrom first count = s.regsFrom first count := by
  induction count generalizing first with
  | zero => rfl
  | succ n ih => simp [State.regsFrom, ih, State.getV, h]

theorem getElem_regsFrom (s : State) (first count k : Nat) (h : k < (s.regsFrom first count).length)
    (hk : first + k < 16) : (s.regsFrom first count)[k] = s.getV ⟨first + k, hk⟩ := by
  induction count generalizing first k with
  | zero => simp at h
  | succ n ih =>
    cases k with
    | zero => simp [State.regsFrom, show first < 16 by omega]
    | succ k =>
      have := ih (first + 1) k (by simpa using h) (by omega)
      simp only [State.regsFrom, List.getElem_cons_succ, this]
      congr 1; ext; simp; omega

/-- The register store is the byte writes of the registers' values (R239). -/
theorem storeLoop_eq (s : State) (base first count : Nat) (h : first + count ≤ 16) :
    s.storeLoop base first count = s.memWriteBytes (base + first) (s.regsFrom first count) := by
  induction count generalizing s first with
  | zero => rfl
  | succ n ih =>
    have hf : first < 16 := by omega
    simp only [State.storeLoop, regGet_lt s hf, State.regsFrom, hf, dif_pos, State.memWriteBytes]
    by_cases hb : base + first < 4096
    · simp only [memWrite_lt s _ hb]
      rw [ih _ (first + 1) (by omega)]
      exact congrArg _ (regsFrom_congr (s := s) (t := { s with mem := s.mem.write _ _ }) rfl (first + 1) n)
    · simp only [memWrite_ge s _ (show 4096 ≤ base + first by omega)]

/-- A register load that fits changes the registers it names, each to the byte at its address, and nothing else
(R240). -/
theorem loadLoop_ok (s : State) (base first count : Nat) (hr : first + count ≤ 16)
    (hm : base + first + count ≤ 4096) :
    ∃ regs : Vector Byte 16, s.loadLoop base first count = .ok { s with v := regs } ∧
      ∀ q : Reg, ({ s with v := regs } : State).getV q =
        if first ≤ q.val ∧ q.val < first + count then s.mem.read (base + q.val) else s.getV q := by
  induction count generalizing s first with
  | zero =>
    refine ⟨s.v, rfl, fun q => ?_⟩
    have : ¬(first ≤ q.val ∧ q.val < first + 0) := by omega
    simp only [this, if_false]
  | succ n ih =>
    have hf : first < 16 := by omega
    obtain ⟨regs, hload, hregs⟩ :=
      ih (s.setV ⟨first, hf⟩ (s.mem.read (base + first))) (first + 1) (by omega) (by omega)
    refine ⟨regs, ?_, fun q => ?_⟩
    · simp only [State.loadLoop, memRead_lt s (show base + first < 4096 by omega), regSet_lt s _ hf]
      exact hload
    · have := hregs q
      rw [show ({ s with v := regs } : State).getV q =
        ({ s.setV ⟨first, hf⟩ (s.mem.read (base + first)) with v := regs } : State).getV q from rfl, this]
      by_cases hq : q = ⟨first, hf⟩
      · subst hq; simp
      · have hne : q.val ≠ first := fun e => hq (Fin.ext e)
        by_cases hin : first + 1 ≤ q.val ∧ q.val < first + 1 + n
        · have h2 : first ≤ q.val ∧ q.val < first + (n + 1) := by omega
          simp [hin, h2]
        · have h2 : ¬(first ≤ q.val ∧ q.val < first + (n + 1)) := by omega
          simp only [hin, h2, if_false]
          exact getV_setV_ne s _ hq

/-- A register load that does not fit faults at the first address outside memory (R59, R240). -/
theorem loadLoop_error (s : State) (base first count : Nat) (hc : 0 < count) (hr : first + count ≤ 16)
    (hm : 4096 < base + first + count) :
    s.loadLoop base first count = .error (.outOfBounds (max (base + first) 4096)) := by
  induction count generalizing s first with
  | zero => omega
  | succ n ih =>
    have hf : first < 16 := by omega
    by_cases hb : base + first < 4096
    · have hmax : max (base + (first + 1)) 4096 = max (base + first) 4096 := by omega
      simp only [State.loadLoop, memRead_lt s hb, regSet_lt s _ hf]
      rw [ih _ (first + 1) (by omega) (by omega) (by omega), hmax]
    · have hmax : max (base + first) 4096 = base + first := by omega
      simp only [State.loadLoop, memRead_ge s (show 4096 ≤ base + first by omega), hmax]

/-- A register store of V0..Vx that completes did fit, and changed memory only (R239). -/
theorem storeLoop_inv {s t : State} {base : Nat} {x : Reg} (h : s.storeLoop base 0 (x.val + 1) = .ok t) :
    base + (x.val + 1) ≤ 4096 ∧ t = { s with mem := s.mem.writeBytes base (s.regsFrom 0 (x.val + 1)) } := by
  rw [storeLoop_eq s base 0 (x.val + 1) (by omega)] at h
  simpa using memWriteBytes_inv (by simp [State.regsFrom]) h

/-- A register load of V0..Vx that completes did fit, and changed those registers only (R240). -/
theorem loadLoop_inv {s t : State} {base : Nat} {x : Reg} (h : s.loadLoop base 0 (x.val + 1) = .ok t) :
    base + (x.val + 1) ≤ 4096 ∧ t = { s with v := t.v } ∧
      ∀ q : Reg, t.getV q = if q ≤ x then s.mem.read (base + q.val) else s.getV q := by
  by_cases hfit : base + (x.val + 1) ≤ 4096
  · obtain ⟨regs, hl, hregs⟩ := loadLoop_ok s base 0 (x.val + 1) (by omega) (by omega)
    rw [hl] at h
    obtain rfl := Except.ok.inj h
    refine ⟨hfit, rfl, fun q => ?_⟩
    rw [hregs q]
    by_cases hq : q ≤ x
    · have : q.val ≤ x.val := hq
      rw [if_pos hq, if_pos (by omega)]
    · have : ¬q.val ≤ x.val := hq
      rw [if_neg hq, if_neg (by omega)]
  · rw [loadLoop_error s base 0 (x.val + 1) (by omega) (by omega) (by omega)] at h
    cases h

end Sys2Proof.Machine
end

