-- ==== Sys2Proof/Laws/PerInstr.lean ====
section
/-! SUPPORT. Statements about every instruction, made per constructor. Family EncodeMatches: the word of an instruction,
masked as the row of spec/opcode_table.json says, is that row's match value (30_encoding.md R92). -/

namespace Sys2Proof.Laws

/-- The (mask, match) pair of an instruction's row of R92. -/
def tableRow : Instr → Word × Word
  | .cls => (0xFFFF#16, 0x00E0#16)
  | .ret => (0xFFFF#16, 0x00EE#16)
  | .jp .. => (0xF000#16, 0x1000#16)
  | .call .. => (0xF000#16, 0x2000#16)
  | .seImm .. => (0xF000#16, 0x3000#16)
  | .sneImm .. => (0xF000#16, 0x4000#16)
  | .seReg .. => (0xF00F#16, 0x5000#16)
  | .ldImm .. => (0xF000#16, 0x6000#16)
  | .addImm .. => (0xF000#16, 0x7000#16)
  | .ldReg .. => (0xF00F#16, 0x8000#16)
  | .orReg .. => (0xF00F#16, 0x8001#16)
  | .andReg .. => (0xF00F#16, 0x8002#16)
  | .xorReg .. => (0xF00F#16, 0x8003#16)
  | .addReg .. => (0xF00F#16, 0x8004#16)
  | .subReg .. => (0xF00F#16, 0x8005#16)
  | .shr .. => (0xF00F#16, 0x8006#16)
  | .subn .. => (0xF00F#16, 0x8007#16)
  | .shl .. => (0xF00F#16, 0x800E#16)
  | .sneReg .. => (0xF00F#16, 0x9000#16)
  | .ldI .. => (0xF000#16, 0xA000#16)
  | .jpV0 .. => (0xF000#16, 0xB000#16)
  | .rnd .. => (0xF000#16, 0xC000#16)
  | .drw .. => (0xF000#16, 0xD000#16)
  | .skp .. => (0xF0FF#16, 0xE09E#16)
  | .sknp .. => (0xF0FF#16, 0xE0A1#16)
  | .ldVxDt .. => (0xF0FF#16, 0xF007#16)
  | .ldVxK .. => (0xF0FF#16, 0xF00A#16)
  | .ldDtVx .. => (0xF0FF#16, 0xF015#16)
  | .ldStVx .. => (0xF0FF#16, 0xF018#16)
  | .addI .. => (0xF0FF#16, 0xF01E#16)
  | .ldF .. => (0xF0FF#16, 0xF029#16)
  | .ldB .. => (0xF0FF#16, 0xF033#16)
  | .storeRegs .. => (0xF0FF#16, 0xF055#16)
  | .loadRegs .. => (0xF0FF#16, 0xF065#16)

/-- The fixed bits of the instruction's word are those of its row (R85, R92). -/
def EncodeMatches.Statement (i : Instr) : Prop := encode i &&& (tableRow i).1 = (tableRow i).2

namespace EncodeMatches

theorem cls : Statement .cls := rfl
theorem ret : Statement .ret := rfl
theorem jp (nnn : Addr) : Statement (.jp nnn) := and_addr _ nnn
theorem call (nnn : Addr) : Statement (.call nnn) := and_addr _ nnn
theorem seImm (x : Reg) (nn : Byte) : Statement (.seImm x nn) := and_imm _ (fieldOf x) nn
theorem sneImm (x : Reg) (nn : Byte) : Statement (.sneImm x nn) := and_imm _ (fieldOf x) nn
theorem seReg (x : Reg) (y : Reg) : Statement (.seReg x y) := and_regs _ (fieldOf x) (fieldOf y) _
theorem ldImm (x : Reg) (nn : Byte) : Statement (.ldImm x nn) := and_imm _ (fieldOf x) nn
theorem addImm (x : Reg) (nn : Byte) : Statement (.addImm x nn) := and_imm _ (fieldOf x) nn
theorem ldReg (x : Reg) (y : Reg) : Statement (.ldReg x y) := and_regs _ (fieldOf x) (fieldOf y) _
theorem orReg (x : Reg) (y : Reg) : Statement (.orReg x y) := and_regs _ (fieldOf x) (fieldOf y) _
theorem andReg (x : Reg) (y : Reg) : Statement (.andReg x y) := and_regs _ (fieldOf x) (fieldOf y) _
theorem xorReg (x : Reg) (y : Reg) : Statement (.xorReg x y) := and_regs _ (fieldOf x) (fieldOf y) _
theorem addReg (x : Reg) (y : Reg) : Statement (.addReg x y) := and_regs _ (fieldOf x) (fieldOf y) _
theorem subReg (x : Reg) (y : Reg) : Statement (.subReg x y) := and_regs _ (fieldOf x) (fieldOf y) _
theorem shr (x : Reg) (y : Reg) : Statement (.shr x y) := and_regs _ (fieldOf x) (fieldOf y) _
theorem subn (x : Reg) (y : Reg) : Statement (.subn x y) := and_regs _ (fieldOf x) (fieldOf y) _
theorem shl (x : Reg) (y : Reg) : Statement (.shl x y) := and_regs _ (fieldOf x) (fieldOf y) _
theorem sneReg (x : Reg) (y : Reg) : Statement (.sneReg x y) := and_regs _ (fieldOf x) (fieldOf y) _
theorem ldI (nnn : Addr) : Statement (.ldI nnn) := and_addr _ nnn
theorem jpV0 (nnn : Addr) : Statement (.jpV0 nnn) := and_addr _ nnn
theorem rnd (x : Reg) (nn : Byte) : Statement (.rnd x nn) := and_imm _ (fieldOf x) nn
theorem drw (x : Reg) (y : Reg) (n : Nibble) : Statement (.drw x y n) := and_regs_any _ (fieldOf x) (fieldOf y) n
theorem skp (x : Reg) : Statement (.skp x) := and_low _ (fieldOf x) _
theorem sknp (x : Reg) : Statement (.sknp x) := and_low _ (fieldOf x) _
theorem ldVxDt (x : Reg) : Statement (.ldVxDt x) := and_low _ (fieldOf x) _
theorem ldVxK (x : Reg) : Statement (.ldVxK x) := and_low _ (fieldOf x) _
theorem ldDtVx (x : Reg) : Statement (.ldDtVx x) := and_low _ (fieldOf x) _
theorem ldStVx (x : Reg) : Statement (.ldStVx x) := and_low _ (fieldOf x) _
theorem addI (x : Reg) : Statement (.addI x) := and_low _ (fieldOf x) _
theorem ldF (x : Reg) : Statement (.ldF x) := and_low _ (fieldOf x) _
theorem ldB (x : Reg) : Statement (.ldB x) := and_low _ (fieldOf x) _
theorem storeRegs (x : Reg) : Statement (.storeRegs x) := and_low _ (fieldOf x) _
theorem loadRegs (x : Reg) : Statement (.loadRegs x) := and_low _ (fieldOf x) _

end EncodeMatches

end Sys2Proof.Laws
end

