-- ==== Sys2Proof/Laws/Step.lean ====
section
/-! SUPPORT. What the phases of a step can do, said once. -/

namespace Sys2Proof.Machine

/-- A fetch that succeeds has both bytes in memory and joins them big-endian (R58, R121). -/
theorem fetch_ok {s : State} {w : Word} (h : fetch s = .ok w) :
    s.pc.toNat ≤ 4094 ∧ w = joinBytes (s.mem.read s.pc.toNat) (s.mem.read (s.pc.toNat + 1)) := by
  unfold fetch at h
  by_cases h1 : s.pc.toNat + 1 < 4096
  · rw [memRead_lt s (show s.pc.toNat < 4096 by omega), memRead_lt s h1] at h
    exact ⟨by omega, by simpa using h.symm⟩
  · by_cases h0 : s.pc.toNat < 4096
    · rw [memRead_lt s h0, memRead_ge s (show 4096 ≤ s.pc.toNat + 1 by omega)] at h
      simp at h
    · rw [memRead_ge s (show 4096 ≤ s.pc.toNat by omega)] at h
      simp at h

theorem fetch_in_memory {s : State} (h : s.pc.toNat ≤ 4094) :
    fetch s = .ok (joinBytes (s.mem.read s.pc.toNat) (s.mem.read (s.pc.toNat + 1))) := by
  unfold fetch
  rw [memRead_lt s (show s.pc.toNat < 4096 by omega), memRead_lt s (show s.pc.toNat + 1 < 4096 by omega)]

theorem fetchDecode_ok {s : State} {i : Instr} (h : fetchDecode s = .ok i) :
    ∃ w, fetch s = .ok w ∧ decodeWord w = .ok i := by
  unfold fetchDecode at h
  cases hf : fetch s with
  | error f => simp [hf] at h
  | ok w =>
    cases hd : decodeWord w with
    | error e => simp [hf, hd] at h
    | ok j =>
      simp only [hf, hd, Except.ok.injEq] at h
      exact ⟨w, rfl, by rw [hd, h]⟩

theorem handOff_ok {s : State} (h : s.renderAnswer = .ok) : handOff s = .next (tick (handFrame s)) := by
  unfold handOff
  rw [h]

theorem handOff_error {s : State} {e : RenderErr} (h : s.renderAnswer = .error e) :
    handOff s = .fault (.renderError e) := by
  unfold handOff
  rw [h]
  rfl

/-- The hand-off goes on only when the renderer answered Ok (R114, R304). -/
theorem handOff_next {s t : State} (h : handOff s = .next t) :
    s.renderAnswer = .ok ∧ t = tick (handFrame s) := by
  unfold handOff at h
  cases hr : s.renderAnswer with
  | ok => simpa [hr, eq_comm] using h
  | error e => simp [hr, raise] at h

theorem finishStep_next {r : Result} {t : State} (h : finishStep r = .next t) :
    ∃ u, r = .next u ∧ u.renderAnswer = .ok ∧ t = tick (handFrame u) := by
  cases r with
  | next u => exact ⟨u, rfl, handOff_next h⟩
  | fault f => simp [finishStep] at h
  | refused f => simp [finishStep] at h

/-- A running core with nothing to run at PC faults as the fetch or the dispatch says. -/
theorem step_fetchDecode_error {s : State} {f : Fault} (hf : s.faulted = false)
    (h : fetchDecode s = .error f) : step s = .fault f := by
  simp [step, hf, h, raise]

/-- A running core with an instruction at PC runs it and the phases after it. -/
theorem step_fetchDecode_ok {s : State} {i : Instr} (hf : s.faulted = false) (h : fetchDecode s = .ok i) :
    step s = finishStep (exec i (advance s)) := by
  simp [step, hf, h]

/-- A faulted core performs no step (R128). -/
theorem step_faulted {s : State} (hf : s.faulted = true) : step s = .refused .coreFaulted := by
  simp [step, hf]

/-- Everything a step that completes can have done (R120). -/
theorem step_next {s t : State} (h : step s = .next t) :
    s.faulted = false ∧ ∃ i u, fetchDecode s = .ok i ∧ exec i (advance s) = .next u ∧
      u.renderAnswer = .ok ∧ t = tick (handFrame u) := by
  unfold step at h
  cases hf : s.faulted with
  | true => simp [hf] at h
  | false =>
    cases hd : fetchDecode s with
    | error f => simp [hf, hd, raise] at h
    | ok i =>
      simp only [hf, hd] at h
      obtain ⟨u, hu, hr, ht⟩ := finishStep_next h
      exact ⟨rfl, i, u, rfl, hu, hr, ht⟩

/-- After a completed body the frame is handed over, also when the renderer's answer is the fault (R114). -/
theorem faultEnd_body {s t : State} {i : Instr} (hd : fetchDecode s = .ok i) (h : exec i (advance s) = .next t) :
    faultEnd s = handFrame t := by
  simp [faultEnd, hd, h]

/-- A fault other than the renderer's comes before the hand-off, so nothing R308 leaves specified has changed. -/
theorem faultEnd_of_not_render {s : State} {f : Fault} (h : step s = .fault f) (hf : ∀ e, f ≠ .renderError e) :
    faultEnd s = s := by
  unfold step at h
  unfold faultEnd
  cases hs : s.faulted with
  | true => simp [hs] at h
  | false =>
    cases hd : fetchDecode s with
    | error g => rfl
    | ok i =>
      cases he : exec i (advance s) with
      | next t =>
        cases ha : t.renderAnswer with
        | ok => simp [hs, hd, he, finishStep, handOff, ha] at h
        | error e => exact absurd (by simpa [hs, hd, he, finishStep, handOff, ha, raise] using h.symm) (hf e)
      | fault g => simp [he]
      | refused r => simp [he]

/-- Everything a step request that faults can answer and leave, outside the elements of R308. -/
theorem stepPort_fault {s s' : State} {f : Fault} {r : Reply} (h : step s = .fault f) (hp : stepPort s r s') :
    r = .fault f ∧ s'.faulted = true ∧ s'.mem.wf ∧ s'.stepCount = (faultEnd s).stepCount ∧
      s'.key = (faultEnd s).key ∧ s'.rnd = (faultEnd s).rnd ∧ s'.draws = (faultEnd s).draws ∧
      s'.renderAnswer = (faultEnd s).renderAnswer ∧ s'.frame = (faultEnd s).frame ∧
      s'.config = (faultEnd s).config := by
  unfold stepPort at hp
  rw [h] at hp
  obtain ⟨rfl, v, i, pc, stack, dt, st, mem, fb, hm, rfl⟩ := hp
  exact ⟨rfl, rfl, hm, rfl, rfl, rfl, rfl, rfl, rfl, rfl⟩

/-- A step request that faults has an answer. -/
theorem stepPort_fault_exists {s : State} {f : Fault} (h : step s = .fault f) : ∃ s', stepPort s (.fault f) s' := by
  unfold stepPort
  rw [h]
  exact ⟨_, rfl, (faultEnd s).v, 0, 0, [], 0, 0, [], FrameBuffer.blank, Memory.wf_nil, rfl⟩

/-- A body that ends in `complete` answers a next state only from a completed access sequence. -/
theorem complete_next {e : Except Fault State} {t : State} (h : complete e = .next t) : e = .ok t := by
  cases e with
  | ok u => simpa [complete] using h
  | error f => simp [complete, raise] at h

/-- An access sequence never refuses. -/
theorem complete_not_refused (e : Except Fault State) (r : Refusal) : complete e ≠ .refused r := by
  cases e <;> simp [complete, raise]

end Sys2Proof.Machine
end

