-- ==== Sys2Proof/Tests/Slice0.lean ====
section
/-! SUPPORT. Tests. Expected results are those of the spec: the vectors of 95_test_vectors.md by their id, the rules'
own examples by rule number, or the words of 30_encoding.md R92. Witnesses show that the hypotheses of a statement can be met. -/

namespace Sys2Proof.Tests

open Sys2Proof.Machine

/-! ## The states tests start from -/

/-- The vectors' configuration: the defaults, FONT_BASE = 0, TIMER_PERIOD too large for a tick. -/
def testConfig : Config := { Config.standard with fontBase := 0, timerPeriod := 1000 }

/-- Reset with the vectors' configuration. -/
def start : State := State.construct testConfig

/-- `s` with the given registers. -/
def regs (s : State) (l : List (Reg × Byte)) : State := l.foldl (fun t p => t.setV p.1 p.2) s

/-- The state after one step on the word `w`, if the step completes. -/
def after (s : State) (w : Word) : Option State :=
  match step (placeWord s w) with
  | .next t => some t
  | _ => none

/-- The fault of one step on the word `w`, if the step faults. -/
def faultOf (s : State) (w : Word) : Option Fault :=
  match step (placeWord s w) with
  | .fault f => some f
  | _ => none

/-- The lit cells among the first `n` columns of a row. -/
def lit (s : State) (y : Fin 32) : List Nat :=
  ((List.finRange 64).filter (fun x => s.fb.get x y)).map Fin.val

/-! ## Well-formedness: one ill-formed term for each check -/

theorem test_wf_fields_ok : (parse 0xF0 0xF0).wellFormed = true := by decide
theorem test_wf_fields_nn_refused : { parse 0x12 0x34 with nn := 0x35 }.wellFormed = false := by decide
theorem test_wf_fields_nnn_refused : { parse 0x12 0x34 with nnn := 0x334 }.wellFormed = false := by decide
theorem test_wf_config_ok : testConfig.wellFormed = true := by decide
theorem test_wf_font_refused : { testConfig with fontBase := 0xFB1 }.wellFormed = false := by decide
theorem test_wf_period_refused : { testConfig with timerPeriod := 0 }.wellFormed = false := by decide
theorem test_wf_limit_refused : { testConfig with stackLimit := some 0 }.wellFormed = false := by decide

/-! ## Decoding: the word of every constructor, from the patterns of R92 -/

theorem test_decode_control :
    decodeTableWord 16 0x00EE = some .ret ∧ decodeTableWord 16 0x1ABC = some (.jp 0xABC) ∧
    decodeTableWord 16 0x2ABC = some (.call 0xABC) ∧ decodeTableWord 16 0x3A12 = some (.seImm 10 0x12) ∧
    decodeTableWord 16 0x4A12 = some (.sneImm 10 0x12) ∧ decodeTableWord 16 0x5AB0 = some (.seReg 10 11) ∧
    decodeTableWord 16 0x9AB0 = some (.sneReg 10 11) ∧ decodeTableWord 16 0xBABC = some (.jpV0 0xABC) := by
  decide

theorem test_decode_display :
    decodeTableWord 16 0x00E0 = some .cls ∧ decodeTableWord 16 0xD123 = some (.drw 1 2 3) := by decide

theorem test_decode_alu :
    decodeTableWord 16 0x6A12 = some (.ldImm 10 0x12) ∧ decodeTableWord 16 0x7A12 = some (.addImm 10 0x12) ∧
    decodeTableWord 16 0x8AB0 = some (.ldReg 10 11) ∧ decodeTableWord 16 0x8AB1 = some (.orReg 10 11) ∧
    decodeTableWord 16 0x8AB2 = some (.andReg 10 11) ∧ decodeTableWord 16 0x8AB3 = some (.xorReg 10 11) ∧
    decodeTableWord 16 0x8AB4 = some (.addReg 10 11) ∧ decodeTableWord 16 0x8AB5 = some (.subReg 10 11) ∧
    decodeTableWord 16 0x8AB6 = some (.shr 10 11) ∧ decodeTableWord 16 0x8AB7 = some (.subn 10 11) ∧
    decodeTableWord 16 0x8ABE = some (.shl 10 11) ∧ decodeTableWord 16 0xCA12 = some (.rnd 10 0x12) := by
  decide

theorem test_decode_index :
    decodeTableWord 16 0xAABC = some (.ldI 0xABC) ∧ decodeTableWord 16 0xFA1E = some (.addI 10) ∧
    decodeTableWord 16 0xFA29 = some (.ldF 10) ∧ decodeTableWord 16 0xFA33 = some (.ldB 10) ∧
    decodeTableWord 16 0xFA55 = some (.storeRegs 10) ∧ decodeTableWord 16 0xFA65 = some (.loadRegs 10) := by
  decide

theorem test_decode_keys_timers :
    decodeTableWord 16 0xEA9E = some (.skp 10) ∧ decodeTableWord 16 0xEAA1 = some (.sknp 10) ∧
    decodeTableWord 16 0xFA07 = some (.ldVxDt 10) ∧ decodeTableWord 16 0xFA0A = some (.ldVxK 10) ∧
    decodeTableWord 16 0xFA15 = some (.ldDtVx 10) ∧ decodeTableWord 16 0xFA18 = some (.ldStVx 10) := by
  decide

/-- R87's examples, DEC-7, DEC-9 and DEC-10. -/
theorem test_decode_unknown :
    [0x0123, 0x00E1, 0x5121, 0x8008, 0x800F, 0x8AB8, 0x9AB1, 0xE09F, 0xF000, 0xF0F0, 0xFFFF, 0x0000].all
      (fun w => (decodeTableWord 16 w).isNone) = true := by decide

theorem test_decode_bytes : decode [0x60, 0x2A, 0xA0] = .ok (.ldImm 0 0x2A, [0xA0]) := by rfl
theorem test_decode_truncated : decode [0x60] = .error .truncated := by rfl

/-! ## Control transfer -/

theorem test_cf1_ret_empty : faultOf start 0x00EE = some (.invalidState .emptyStack) := by decide
theorem test_r160_ret :
    (after { start with stack := [0x202] } 0x00EE).map (fun t => (t.pc, t.stack)) = some (0x202, []) := by decide
theorem test_r161_jp_self : (after start 0x1200).map State.pc = some 0x200 := by decide
theorem test_cf4_jp_last :
    (after start 0x1FFF).map (fun t => (t.pc, step t matches .fault (.outOfBounds 0x1000))) =
      some (0xFFF, true) := by decide
theorem test_cf2_call :
    (after start 0x2300).map (fun t => (t.pc, t.stack)) = some (0x300, [0x202]) := by decide
theorem test_cf15_call_full :
    faultOf { start with stack := [0x400], config := { testConfig with stackLimit := some 1 } } 0x2300 =
      some (.invalidState .stackFull) := by decide
theorem test_cf6_se_imm : (after (regs start [(3, 0x10)]) 0x3310).map State.pc = some 0x204 := by decide
theorem test_cf7_se_imm_not : (after (regs start [(3, 0x11)]) 0x3310).map State.pc = some 0x202 := by decide
theorem test_cf8_sne_imm : (after (regs start [(3, 0x11)]) 0x4310).map State.pc = some 0x204 := by decide
theorem test_r166_se_reg : (after (regs start [(1, 7), (2, 7)]) 0x5120).map State.pc = some 0x204 := by decide
theorem test_r167_sne_reg : (after (regs start [(1, 7), (2, 8)]) 0x9120).map State.pc = some 0x204 := by decide
theorem test_cf10_sne_same : (after (regs start [(1, 7)]) 0x9110).map State.pc = some 0x202 := by decide
theorem test_cf11_jp_v0 : (after (regs start [(0, 0xFF)]) 0xBFFF).map State.pc = some 0x10FE := by decide
theorem test_cf12_jp_vx :
    (after (regs { start with config := { testConfig with jumpOffsetReg := .vxOfNnn } } [(3, 0x10), (0, 4)])
      0xB300).map State.pc = some 0x310 := by decide
/-- CF-14: an odd PC fetches like any other. -/
theorem test_cf14_odd_pc :
    (after { start with pc := 0x201 } 0x6A55).map (fun t => (t.pc, t.getV 10)) = some (0x203, 0x55) := by decide

/-! ## ALU -/

theorem test_alu1_add :
    (after (regs start [(0, 0xFF), (1, 1)]) 0x8014).map (fun t => (t.getV 0, t.getV 15)) = some (0, 1) := by decide
theorem test_alu4_add_vf : (after (regs start [(15, 0x10), (1, 0x20)]) 0x8F14).map (·.getV 15) = some 0 := by decide
theorem test_alu6_sub :
    (after (regs start [(0, 0x10), (1, 0x20)]) 0x8015).map (fun t => (t.getV 0, t.getV 15)) = some (0xF0, 0) := by
  decide
theorem test_alu7_sub_equal :
    (after (regs start [(0, 0x10), (1, 0x10)]) 0x8015).map (fun t => (t.getV 0, t.getV 15)) = some (0, 1) := by
  decide
theorem test_alu9_subn :
    (after (regs start [(0, 0x20), (1, 0x10)]) 0x8017).map (fun t => (t.getV 0, t.getV 15)) = some (0xF0, 0) := by
  decide
theorem test_alu11_shr :
    (after (regs start [(0, 0xAA), (1, 1)]) 0x8016).map (fun t => (t.getV 0, t.getV 15)) = some (0, 1) := by decide
theorem test_alu12_shr_vx :
    (after (regs { start with config := { testConfig with shiftSrc := .vx } } [(0, 3), (1, 0xFF)]) 0x8016).map
      (fun t => (t.getV 0, t.getV 15)) = some (1, 1) := by decide
theorem test_alu14_shl :
    (after (regs start [(1, 0x7F)]) 0x801E).map (fun t => (t.getV 0, t.getV 15)) = some (0xFE, 0) := by decide
theorem test_alu16_shl_old_vf :
    (after (regs start [(15, 0x81)]) 0x80FE).map (fun t => (t.getV 0, t.getV 15)) = some (2, 1) := by decide
theorem test_alu17_or :
    (after (regs start [(15, 0x55), (0, 0x0F), (1, 0xF0)]) 0x8011).map (fun t => (t.getV 0, t.getV 15)) =
      some (0xFF, 0x55) := by decide
theorem test_alu18_and : (after (regs start [(0, 0x3C), (1, 0x0F)]) 0x8012).map (·.getV 0) = some 0x0C := by decide
theorem test_alu19_xor : (after (regs start [(4, 0x99)]) 0x8443).map (·.getV 4) = some 0 := by decide
theorem test_r203_xor : (after (regs start [(0, 0xFF), (1, 0x0F)]) 0x8013).map (·.getV 0) = some 0xF0 := by decide
theorem test_alu20_ld_vf : (after (regs start [(0, 0x42)]) 0x8F00).map (·.getV 15) = some 0x42 := by decide
theorem test_alu21_add_imm :
    (after (regs start [(15, 0x55), (0, 0xFF)]) 0x7001).map (fun t => (t.getV 0, t.getV 15)) = some (0, 0x55) := by
  decide
theorem test_alu23_rnd : (after (start.hostSetRnd 0xA5) 0xC00F).map (·.getV 0) = some 0xA5 := by decide
theorem test_alu23_rnd_masked :
    (after ({ start with config := { testConfig with rndAndNn := true } }.hostSetRnd 0xA5) 0xC00F).map (·.getV 0) =
      some 0x05 := by decide
theorem test_alu24_ld_imm : (after start 0x6F2A).map (·.getV 15) = some 0x2A := by decide

/-! ## Index and memory -/

theorem test_mem1_ld_i : (after start 0xAFFF).map State.i = some 0x0FFF := by decide
theorem test_mem2_add_i : (after (regs { start with i := 0xFFFF } [(0, 1)]) 0xF01E).map State.i = some 0 := by decide
theorem test_r237_ld_f :
    (after (regs { start with config := { testConfig with fontBase := 0x50 } } [(4, 0x0A)]) 0xF429).map State.i =
      some 0x82 := by decide
theorem test_mem5_ld_f_whole : (after (regs start [(0, 0xFF)]) 0xF029).map State.i = some 0x04FB := by decide
theorem test_mem8_ld_b :
    (after (regs { start with i := 0x300 } [(0, 0xFF)]) 0xF033).map (fun t => t.mem.block 0x300 3) =
      some [2, 5, 5] := by decide
theorem test_mem10_ld_b_fault :
    faultOf (regs { start with i := 0xFFE } [(0, 0xFF)]) 0xF033 = some (.outOfBounds 0x1000) := by decide
theorem test_r239_store :
    (after (regs { start with i := 0x400 } [(0, 1), (1, 2), (2, 3), (3, 4)]) 0xF255).map
      (fun t => (t.mem.block 0x400 4, t.i)) = some ([1, 2, 3, 0], 0x400) := by decide
theorem test_mem14_load_fault : faultOf { start with i := 0xFFFF } 0xF065 = some (.outOfBounds 0xFFFF) := by decide
theorem test_mem16_load :
    (after { start with i := 0x500, mem := [(0x500, 0x0A), (0x501, 0x0B), (0x502, 0x0C), (0x503, 0x0D)] } 0xF265).map
      (fun t => (t.getV 0, t.getV 1, t.getV 2, t.getV 3, t.i)) = some (0x0A, 0x0B, 0x0C, 0, 0x500) := by decide
/-- Memory keeps its canonical form: writing 0 removes the entry. -/
theorem test_memory_canonical :
    Memory.write (Memory.write (Memory.write [] 7 1) 3 2) 7 0 = [(3, 2)] := by decide

/-! ## Display -/

theorem test_drw3_origin_wraps :
    (after (regs { start with i := 0x300, mem := [(0x300, 0x80)] } [(0, 70), (1, 40)]) 0xD011).map
      (fun t => (lit t 8, t.getV 15)) = some ([6], 0) := by decide
theorem test_drw4_clips :
    (after (regs { start with i := 0x300, mem := [(0x300, 0xFF)] } [(0, 60)]) 0xD011).map (fun t => lit t 0) =
      some [60, 61, 62, 63] := by decide
theorem test_drw6b_fault : faultOf { start with i := 0x1001 } 0xD010 = some (.outOfBounds 0x1001) := by decide
theorem test_drw8_collision :
    (after { start with i := 0x300, mem := [(0x300, 0xC0)], fb := FrameBuffer.blank.set 1 0 true } 0xD011).map
      (fun t => (lit t 0, t.getV 15)) = some ([0], 1) := by decide
theorem test_drw12_cls :
    (after (regs { start with fb := FrameBuffer.blank.set 1 0 true } [(15, 9)]) 0x00E0).map
      (fun t => (lit t 0, t.getV 15)) = some ([], 9) := by decide

/-! ## Keys and timers -/

/-- The key vector with keys 7, 10 and 12 pressed. -/
def somePressed : KeyState := (((Vector.replicate 16 false).set 7 true).set 10 true).set 12 true

theorem test_kt1_skp : (after (regs (start.hostSetKey somePressed) [(5, 0x0A)]) 0xE59E).map State.pc = some 0x204 := by
  decide
theorem test_kt3_sknp : (after (regs start [(5, 0x0A)]) 0xE5A1).map State.pc = some 0x204 := by decide
theorem test_kt4_key_oob : faultOf (regs start [(5, 0x10)]) 0xE59E = some (.outOfBounds 0x10) := by decide
theorem test_kt5_key_oob_sknp :
    (after (regs { start with config := { testConfig with keyOob := .notPressed } } [(5, 0x10)]) 0xE5A1).map State.pc =
      some 0x204 := by decide
theorem test_kt6_wait : (after (regs start [(3, 9)]) 0xF30A).map (fun t => (t.pc, t.getV 3)) = some (0x200, 9) := by
  decide
theorem test_kt7_wait_pressed :
    (after (start.hostSetKey somePressed) 0xF30A).map (fun t => (t.pc, t.getV 3)) = some (0x202, 7) := by decide
theorem test_kt8_read_dt : (after { start with dt := 0x3C } 0xF307).map (·.getV 3) = some 0x3C := by decide
theorem test_kt9_set_dt : (after (regs start [(3, 0x3C)]) 0xF315).map State.dt = some 0x3C := by decide
theorem test_kt10_set_st : (after (regs start [(3, 0x10)]) 0xF318).map State.st = some 0x10 := by decide
theorem test_kt11_set_then_tick :
    (after (regs { start with config := { testConfig with timerPeriod := 1 } } [(0, 1)]) 0xF015).map State.dt =
      some 0 := by decide

/-! ## Cycle, loads and faults -/

theorem test_cyc2_fetch_last : step { start with pc := 0xFFF } matches .fault (.outOfBounds 0x1000) := by decide
theorem test_cyc4_faulted : step { start with faulted := true } matches .refused .coreFaulted := by decide
theorem test_cyc5_render_error :
    faultOf (start.hostSetRenderAnswer (.error ⟨5⟩)) 0x6055 = some (.renderError ⟨5⟩) := by decide
/-- D28: the frame of the step that ends in RenderError is handed over. -/
theorem test_render_error_frame :
    (faultEnd (placeWord ({ start with fb := FrameBuffer.blank.set 1 0 true }.hostSetRenderAnswer (.error ⟨5⟩)) 0x6055)).frame =
      some (FrameBuffer.blank.set 1 0 true) := by decide
theorem test_body_fault_no_frame : (faultEnd (placeWord start 0x00EE)).frame = none := by decide
theorem test_cyc6_load_too_long :
    start.load 0xFFF [1, 2] false matches .error (.outOfBounds 0xFFF) := by decide
theorem test_cyc8_rom_load :
    { start with pc := 0x345 }.load 0x200 [0x12, 0x00] true matches .ok { pc := 0x200, .. } := by decide
theorem test_cyc9_unknown : faultOf start 0xFFFF = some (.unknownInstruction 0xFFFF) := by decide
theorem test_fault_codes :
    [Fault.outOfBounds 0, .invalidState .emptyStack, .unknownInstruction 0, .renderError ⟨0⟩].map Fault.code =
      [1, 2, 3, 4] := by decide

/-! ## Witnesses: concrete states and operands that meet the hypotheses of a statement, one for each clause. For every
statement over steps, `witness_step_next` and `witness_step_fault` are a step that completes and one that faults. -/

/-- The state after one instruction body, if it completes. -/
def ran (i : Instr) (s : State) : Option State :=
  match exec i s with
  | .next t => some t
  | _ => none

theorem exec_of_ran {i : Instr} {s : State} {p : State → Bool} (h : (ran i s).any p = true) :
    ∃ t, exec i s = .next t ∧ p t = true := by
  unfold ran at h
  split at h
  · exact ⟨_, ‹_›, by simpa using h⟩
  · simp at h

theorem step_of_after {s : State} {w : Word} {p : State → Bool} (h : (after s w).any p = true) :
    ∃ t, step (placeWord s w) = .next t ∧ p t = true := by
  unfold after at h
  split at h
  · exact ⟨_, ‹_›, by simpa using h⟩
  · simp at h

theorem fault_of_faultOf {s : State} {w : Word} {f : Fault} (h : faultOf s w = some f) :
    step (placeWord s w) = .fault f := by
  unfold faultOf at h
  split at h
  · simp_all
  · simp at h

/-- A state whose sprite lies at the end of memory: 15 rows at 4081. -/
def spriteAtEnd : State := { start with i := 4081, mem := [(4081, 0x80)] }

theorem witness_byte_bounds : (4095 : Nat) < 4096 ∧ 4096 ≤ (4096 : Nat) := by decide
theorem witness_block_bounds : 4090 + 6 ≤ 4096 ∧ 4090 + 7 > 4096 ∧ 4096 + 0 ≤ 4096 ∧ 4097 + 0 > 4096 := by decide
theorem witness_register_port : (15 : Nat) < 16 ∧ 16 ≤ (16 : Nat) := by decide
theorem witness_timers_tick : 1 ≤ start.config.timerPeriod ∧ start.stepCount = 0 ∧ 999 < start.config.timerPeriod := by
  decide
theorem witness_run : start.stepCount < start.config.timerPeriod ∧ Sys2Proof.core.run 0 start = .next start :=
  ⟨by decide, rfl⟩
theorem witness_run_step : ∃ t, Sys2Proof.core.run 1 (placeWord start 0x6055) = .next t ∧ decide (t.stepCount = 1) = true := by
  obtain ⟨t, ht, hp⟩ := step_of_after (s := start) (w := 0x6055) (p := fun t => decide (t.stepCount = 1)) (by decide)
  have ht' : Sys2Proof.core.step (placeWord start 0x6055) = .next t := ht
  exact ⟨t, by simp only [Host.Core.run, ht'], hp⟩
theorem witness_reset_values : testConfig.regReset = .zero := by decide
theorem witness_construction : testConfig.wellFormed = true := by decide
theorem witness_load_fits : 4094 + ([1, 2] : List Byte).length ≤ 4096 := by decide
theorem witness_load_too_long : 4095 + ([1, 2] : List Byte).length > 4096 := by decide
/-- Boot with the largest ROM; the font at 0 does not overlap it, so every font byte meets the last hypothesis. -/
theorem witness_boot :
    testConfig.wellFormed = true ∧ (List.replicate 80 (0xF0 : Byte)).length = 80 ∧
      (List.replicate 3584 (0 : Byte)).length ≤ 3584 ∧
      ¬(0x200 ≤ testConfig.fontBase.toNat + 79 ∧
        testConfig.fontBase.toNat + 79 < 0x200 + (List.replicate 3584 (0 : Byte)).length) := by
  simp only [List.length_replicate]; decide
theorem witness_encode_decode : decodeWord 0xF165 = .ok (.loadRegs 1) := rfl

/-- 6055 in the last two bytes of memory. -/
def lastWord : State := placeWord { start with pc := 4094 } 0x6055

theorem witness_step_runs :
    lastWord.faulted = false ∧ lastWord.pc.toNat = 4094 ∧
      decodeWord (joinBytes (lastWord.mem.read lastWord.pc.toNat) (lastWord.mem.read (lastWord.pc.toNat + 1))) =
        .ok (.ldImm 0 0x55) ∧
      ∃ t, exec (.ldImm 0 0x55) { lastWord with pc := lastWord.pc + 2 } = .next t ∧ t.renderAnswer = .ok :=
  ⟨by decide, by decide, rfl, _, rfl, rfl⟩
theorem witness_step_runs_render_error :
    ∃ t, exec (.ldImm 0 0x55) { lastWord.hostSetRenderAnswer (.error ⟨5⟩) with pc := lastWord.pc + 2 } = .next t ∧
      t.renderAnswer = .error ⟨5⟩ := ⟨_, rfl, rfl⟩
theorem witness_step_runs_fault :
    decodeWord (joinBytes ((placeWord start 0x00EE).mem.read 0x200) ((placeWord start 0x00EE).mem.read 0x201)) =
        .ok .ret ∧
      exec .ret { placeWord start 0x00EE with pc := 0x202 } = .fault (.invalidState .emptyStack) := ⟨rfl, rfl⟩
theorem witness_fetch_outside :
    { start with pc := 4096 }.faulted = false ∧ 4096 ≤ ({ start with pc := 4096 } : State).pc.toNat ∧
      ({ start with pc := 4095 } : State).pc.toNat = 4095 := by decide
theorem witness_unknown_word :
    start.faulted = false ∧ start.pc.toNat ≤ 4094 ∧
      decodeWord (joinBytes (start.mem.read start.pc.toNat) (start.mem.read (start.pc.toNat + 1))) =
        .error (.unknownInstruction 0) := ⟨by decide, by decide, rfl⟩
theorem witness_step_next : ∃ t, step lastWord = .next t ∧ decide (t.getV 0 = 0x55) = true :=
  step_of_after (s := { start with pc := 4094 }) (by decide)
theorem witness_step_fault : step (placeWord start 0x00EE) = .fault (.invalidState .emptyStack) :=
  fault_of_faultOf (by decide)
theorem witness_step_port_fault :
    ∃ s', stepPort (placeWord start 0x00EE) (.fault (.invalidState .emptyStack)) s' :=
  stepPort_fault_exists witness_step_fault
/-- The render error of a step whose body, CLS, completed. -/
theorem witness_render_error :
    step (placeWord (start.hostSetRenderAnswer (.error ⟨5⟩)) 0x00E0) = .fault (.renderError ⟨5⟩) :=
  fault_of_faultOf (by decide)
theorem witness_step_port_render_error :
    ∃ s', stepPort (placeWord (start.hostSetRenderAnswer (.error ⟨5⟩)) 0x00E0) (.fault (.renderError ⟨5⟩)) s' :=
  stepPort_fault_exists witness_render_error
theorem witness_step_port_render_body :
    (placeWord (start.hostSetRenderAnswer (.error ⟨5⟩)) 0x00E0).faulted = false ∧
      (placeWord (start.hostSetRenderAnswer (.error ⟨5⟩)) 0x00E0).pc.toNat ≤ 4094 ∧
      decodeWord (joinBytes ((placeWord (start.hostSetRenderAnswer (.error ⟨5⟩)) 0x00E0).mem.read 0x200)
        ((placeWord (start.hostSetRenderAnswer (.error ⟨5⟩)) 0x00E0).mem.read 0x201)) = .ok .cls ∧
      ∃ t, exec .cls { placeWord (start.hostSetRenderAnswer (.error ⟨5⟩)) 0x00E0 with pc := 0x202 } = .next t ∧
        t.renderAnswer = .error ⟨5⟩ := ⟨by decide, by decide, rfl, _, rfl, rfl⟩
theorem witness_faulted : start.latchFault.faulted = true := by decide

theorem witness_add_flag_dest : (14 : Reg) ≠ Reg.vf := by decide
theorem witness_shift_vy : start.config.shiftSrc = .vy ∧ (0 : Byte) = start.getV 1 := by decide
theorem witness_shift_vx :
    { testConfig with shiftSrc := .vx }.shiftSrc = .vx ∧
      (0 : Byte) = { start with config := { testConfig with shiftSrc := .vx } }.getV 1 := by decide
theorem witness_flag_last : spriteAtEnd.i.toNat + (15#4 : Nibble).toNat ≤ 4096 := by decide
theorem witness_rnd :
    start.config.rndAndNn = false ∧
      { start with config := { testConfig with rndAndNn := true } }.config.rndAndNn = true := by decide
theorem witness_draw : spriteAtEnd.i.toNat + (15#4 : Nibble).toNat ≤ 4096 := by decide
theorem witness_draw_beyond :
    ({ start with i := 4097 } : State).i.toNat + (0#4 : Nibble).toNat > 4096 ∧
      ({ start with i := 4082 } : State).i.toNat + (15#4 : Nibble).toNat > 4096 := by decide
theorem witness_draw_twice :
    (14 : Reg) ≠ Reg.vf ∧ (0 : Reg) ≠ Reg.vf ∧ spriteAtEnd.i.toNat + (15#4 : Nibble).toNat ≤ 4096 := by decide
theorem witness_draw_twice_blank : ∀ q r, spriteAtEnd.fb.get q r = false := by
  intro q r; simp [spriteAtEnd, start, State.construct, FrameBuffer.blank, FrameBuffer.get]
theorem witness_jump_beyond : 4095 ≤ (0xFFF#12 : Addr).toNat ∧ start.faulted = false := by decide
theorem witness_jump_self :
    (placeWord start 0x1200).faulted = false ∧ (placeWord start 0x1200).renderAnswer = .ok ∧
      (placeWord start 0x1200).pc.toNat = (0x200#12 : Addr).toNat ∧ (placeWord start 0x1200).pc.toNat ≤ 4094 ∧
      joinBytes ((placeWord start 0x1200).mem.read (placeWord start 0x1200).pc.toNat)
        ((placeWord start 0x1200).mem.read ((placeWord start 0x1200).pc.toNat + 1)) = 0x1#4 ++ 0x200#12 := by decide

theorem witness_jump_self_step :
    ∃ t, step (placeWord start 0x1200) = .next t ∧ decide (t.pc = 0x200) = true := step_of_after (by decide)

/-- STACK_LIMIT = 2. -/
def limited : State := { start with config := { testConfig with stackLimit := some 2 } }

theorem witness_call :
    start.config.stackLimit ≠ some start.stack.length ∧
      { limited with stack := [0x202] }.config.stackLimit ≠ some [(0x202 : Word)].length := by decide
theorem witness_call_full :
    { limited with stack := [0x204, 0x202] }.config.stackLimit = some [(0x204 : Word), 0x202].length := by decide
theorem witness_ret :
    ({ start with stack := [0x202] } : State).stack = 0x202 :: [] ∧ start.stack = [] := by decide
theorem witness_ret_after_call : ∃ t, exec (.call 0x300) start = .next t ∧ decide (t.pc = 0x300) = true :=
  exec_of_ran (by decide)
theorem witness_jump_offset_v0 : start.config.jumpOffsetReg = .v0 ∧ (0 : Reg).val = 0 := by decide
theorem witness_jump_offset_vx :
    { testConfig with jumpOffsetReg := .vxOfNnn }.jumpOffsetReg = .vxOfNnn ∧
      (15 : Reg).val = (0xFFF#12 : Addr).toNat / 256 := by decide
theorem witness_index_font : { testConfig with fontBase := 4016 }.fontFits = true := by decide
theorem witness_bcd : ({ start with i := 4093 } : State).i.toNat + 3 ≤ 4096 := by decide
theorem witness_block_transfer : ({ start with i := 4080 } : State).i.toNat + ((15 : Reg).val + 1) ≤ 4096 := by decide
theorem witness_indexed_fault :
    ({ start with i := 4094 } : State).i.toNat + 3 > 4096 ∧
      ({ start with i := 4096 } : State).i.toNat + ((0 : Reg).val + 1) > 4096 ∧
      ({ start with i := 65535 } : State).i.toNat + ((15 : Reg).val + 1) > 4096 := by decide

theorem witness_key_in_range : ((regs start [(5, 15)]).getV 5).toNat < 16 := by decide
theorem witness_key_out_fault :
    ((regs start [(5, 16)]).getV 5).toNat ≥ 16 ∧ (regs start [(5, 16)]).config.keyOob = .fault := by decide
theorem witness_key_out_not_pressed :
    let s := regs { start with config := { testConfig with keyOob := .notPressed } } [(5, 16)]
    (s.getV 5).toNat ≥ 16 ∧ s.config.keyOob = .notPressed := by decide
theorem witness_wait_pressed :
    (start.hostSetKey somePressed).key[7] = true ∧
      ∀ j : Fin 16, j < 7 → (start.hostSetKey somePressed).key[j.val] = false := by decide
theorem witness_wait_none : ∀ k : Fin 16, start.key[k.val] = false := by decide
theorem witness_timer_tick :
    ({ start with stepCount := 999 } : State).renderAnswer = .ok ∧
      ({ start with stepCount := 999 } : State).stepCount + 1 = start.config.timerPeriod := by decide

theorem witness_i_changed : ∃ t, exec (.ldI 5) start = .next t ∧ decide (t.i ≠ start.i) = true :=
  exec_of_ran (by decide)
theorem witness_register_kept :
    (∃ t, exec (.addReg 0 1) start = .next t ∧ decide (t.getV 2 = start.getV 2) = true) ∧
      (2 : Reg) ∉ destRegs (.addReg 0 1) := ⟨exec_of_ran (by decide), by decide⟩
theorem witness_stack_changed : ∃ t, exec (.call 0x300) start = .next t ∧ decide (t.stack ≠ start.stack) = true :=
  exec_of_ran (by decide)
theorem witness_mem_changed :
    ∃ t, exec (.ldB 0) (regs { start with i := 4093 } [(0, 5)]) = .next t ∧
      decide (t.mem.read 4095 ≠ start.mem.read 4095) = true := exec_of_ran (by decide)
theorem witness_fb_changed :
    ∃ t, exec (.drw 0 1 1) spriteAtEnd = .next t ∧ decide (t.fb.get 0 0 ≠ spriteAtEnd.fb.get 0 0) = true :=
  exec_of_ran (by decide)
theorem witness_dt_changed : ∃ t, exec (.ldDtVx 0) (regs start [(0, 5)]) = .next t ∧ decide (t.dt ≠ start.dt) = true :=
  exec_of_ran (by decide)
theorem witness_st_changed : ∃ t, exec (.ldStVx 0) (regs start [(0, 5)]) = .next t ∧ decide (t.st ≠ start.st) = true :=
  exec_of_ran (by decide)
theorem witness_draw_consumed : ∃ t, exec (.rnd 0 5) start = .next t ∧ decide (t.draws ≠ start.draws) = true :=
  exec_of_ran (by decide)
theorem witness_pc_rule_skip :
    ∃ t, exec (.skp 5) ((regs start [(5, 7)]).hostSetKey somePressed) = .next t ∧ decide (t.pc = 0x202) = true :=
  exec_of_ran (by decide)
theorem witness_pc_rule : ∃ t, exec (.jpV0 0xFFF) start = .next t ∧ decide (t.pc = 0xFFF) = true :=
  exec_of_ran (by decide)
theorem witness_body_fault :
    exec (.ldB 0) { start with i := 4094 } = .fault (.outOfBounds 4096) ∧
      exec (.drw 0 1 15) { start with i := 4082 } = .fault (.outOfBounds 4082) ∧
      exec (.skp 5) (regs start [(5, 16)]) = .fault (.outOfBounds 16) := ⟨rfl, rfl, rfl⟩

theorem witness_inv_config : (placeWord start 0x6055).config.wellFormed = true := by decide
theorem witness_inv_mem : (placeWord start 0x6055).mem.wf := by decide
theorem witness_inv_bounds :
    (placeWord start 0x6055).stepCount < (placeWord start 0x6055).config.timerPeriod ∧
      (placeWord start 0x6055).pc.toNat ≤ 0x10FE ∧ (placeWord start 0x6055).faulted = false := by decide
theorem witness_inv : Inv (placeWord start 0x6055) :=
  ⟨witness_inv_config, witness_inv_mem, witness_inv_bounds.1, fun d h => (Option.some_ne_none d h.symm).elim,
    witness_inv_bounds.2.1, fun _ h => (List.not_mem_nil h).elim, witness_inv_bounds.2.2⟩
theorem witness_inv_step : ∃ t, step (placeWord start 0x6055) = .next t ∧ decide (t.getV 0 = 0x55) = true :=
  step_of_after (by decide)
theorem witness_reachable : testConfig.wellFormed = true ∧ Reachable testConfig start := ⟨by decide, .construct⟩

end Sys2Proof.Tests
end

section
namespace Sys2Proof.Machine

theorem decrement_zero : decrement 0 = 0 := rfl

theorem decrement_of_ne_zero {t : Byte} (ht : t ≠ 0) : decrement t = t - 1 := if_neg ht

/-- As a number, a decremented timer is the natural (saturating) difference (R30). -/
theorem toNat_decrement (t : Byte) : (decrement t).toNat = t.toNat - 1 := by
  by_cases ht : t = 0
  · rw [ht, decrement_zero]
    rfl
  · rw [decrement_of_ne_zero ht]
    bv_omega

/-- Settles O10: the value is the saturating difference, and 0 is a fixed point of `decrement`. -/
theorem timerDecrementSaturates : Obligations.TimerDecrementSaturates :=
  ⟨toNat_decrement, Function.iterate_fixed decrement_zero⟩

end Sys2Proof.Machine
end

section
namespace Sys2Proof.Machine

/-- A byte write is invisible to a checked read of any other address, inside memory or outside it (R52). -/
theorem memRead_write_ne (s : State) {a q : Nat} (b : Byte) (hq : q ≠ a) :
    ({ s with mem := s.mem.write a b } : State).memRead q = s.memRead q := by
  by_cases hlt : q < 4096
  · rw [memRead_lt _ hlt, memRead_lt s hlt, Memory.read_write_ne s.mem b hq]
  · rw [memRead_ge _ (Nat.le_of_not_lt hlt), memRead_ge s (Nat.le_of_not_lt hlt)]

/-- Settles O7: outside memory both accesses fault, inside it the written state is `s` with one byte replaced. -/
theorem byteReadAndWriteBounds : Obligations.ByteReadAndWriteBounds := by
  intro s a b
  constructor
  · intro hge
    exact ⟨memRead_ge s hge, memWrite_ge s b hge⟩
  · intro hlt
    have hback : ({ s with mem := s.mem.write a b } : State).memRead a = .ok b := by
      rw [memRead_lt _ hlt, Memory.read_write_same]
    exact ⟨memRead_lt s hlt, _, memWrite_lt s b hlt, hback, fun q hq => memRead_write_ne s b hq, rfl⟩

end Sys2Proof.Machine
end

section
namespace Sys2Proof

/-- `hi:lo` is hi * 256 + lo (R11). -/
theorem toNat_joinBytes (hi lo : Byte) : (joinBytes hi lo).toNat = hi.toNat * 256 + lo.toNat :=
  toNat_concat hi lo

/-- Each field is a slice of the joined word, so none depends on how the word is cut into bytes (R10, R81). -/
theorem parse_eq_slices (hi lo : Byte) :
    parse hi lo =
      { opcode := (joinBytes hi lo).extractLsb' 12 4, x := (joinBytes hi lo).extractLsb' 8 4,
        y := (joinBytes hi lo).extractLsb' 4 4, n := (joinBytes hi lo).extractLsb' 0 4,
        nn := (joinBytes hi lo).extractLsb' 0 8, nnn := (joinBytes hi lo).extractLsb' 0 12 } := by
  have := hi.isLt
  have := lo.isLt
  simp only [parse, Fields.mk.injEq]
  refine ⟨?_, ?_, ?_, ?_, ?_, ?_⟩ <;> apply BitVec.eq_of_toNat_eq <;>
    simp only [toNat_concat, toNat_field, toNat_joinBytes] <;> omega

/-- Settles O2: the fields are slices of the word, and a slice's number is a quotient's remainder. -/
theorem fieldsOfEveryWord : Obligations.FieldsOfEveryWord := by
  refine ⟨fun hi lo => ?_, rfl⟩
  have hw : hi.toNat * 256 + lo.toNat < 2 ^ 16 := toNat_joinBytes hi lo ▸ (joinBytes hi lo).isLt
  simp only [parse_eq_slices, toNat_field, toNat_joinBytes, pow_zero, Nat.div_one, and_true]
  exact Nat.mod_eq_of_lt (Nat.div_lt_of_lt_mul hw)

end Sys2Proof
end

section
namespace Sys2Proof

/-- Every word `1nnn` decodes as JP with its address (R92). -/
theorem decodeWord_jp (nnn : Addr) : decodeWord (0x1#4 ++ nnn) = .ok (.jp nnn) := by
  rw [decodeWord_ok_iff, parse_addr]
  rfl

end Sys2Proof

namespace Sys2Proof.Machine

theorem toNat_zextAddr (nnn : Addr) : (zextAddr nnn).toNat = nnn.toNat := by
  unfold zextAddr
  bv_omega

/-- The body of JP replaces PC in the state and does nothing else (R161). -/
theorem exec_jp (nnn : Addr) (s : State) : exec (.jp nnn) s = .next { s with pc := zextAddr nnn } := rfl

theorem keepsRest_setPc (s : State) (pc : Word) : KeepsRest { pc := true } s { s with pc := pc } where
  v _ _ := rfl
  i _ := rfl
  pc h := nomatch h
  stack _ := rfl
  dt _ := rfl
  st _ := rfl
  mem _ _ := rfl
  fb _ _ _ := rfl
  rnd _ := ⟨rfl, rfl⟩
  stepCount := rfl
  faulted := rfl
  key := rfl
  renderAnswer := rfl
  frame := rfl
  config := rfl

/-- A fetch with a byte outside memory faults at the first such byte (R121). -/
theorem fetchDecode_out_of_memory {s : State} (h : 4095 ≤ s.pc.toNat) :
    ∃ a, fetchDecode s = .error (.outOfBounds a) := by
  have hlo : 4096 ≤ s.pc.toNat + 1 := by omega
  unfold fetchDecode fetch
  by_cases hhi : s.pc.toNat < 4096
  · rw [memRead_lt s hhi, memRead_ge s hlo]
    exact ⟨_, rfl⟩
  · rw [memRead_ge s (Nat.le_of_not_lt hhi)]
    exact ⟨_, rfl⟩

/-- A word in memory that decodes is the instruction to run (R121, R122). -/
theorem fetchDecode_in_memory {s : State} {i : Instr} (hpc : s.pc.toNat ≤ 4094)
    (hw : decodeWord (joinBytes (s.mem.read s.pc.toNat) (s.mem.read (s.pc.toNat + 1))) = .ok i) :
    fetchDecode s = .ok i := by
  unfold fetchDecode
  rw [fetch_in_memory hpc]
  simp only [hw]

/-- A running core whose PC has a fetch byte outside memory faults with OutOfBounds. -/
theorem step_out_of_memory {s : State} (hf : s.faulted = false) (h : 4095 ≤ s.pc.toNat) :
    ∃ a, step s = .fault (.outOfBounds a) := by
  obtain ⟨a, ha⟩ := fetchDecode_out_of_memory h
  exact ⟨a, step_fetchDecode_error hf ha⟩

/-- After its body a JP only hands the frame over (R125, R126, R161). -/
theorem step_jp {s : State} {nnn : Addr} (hf : s.faulted = false) (hd : fetchDecode s = .ok (.jp nnn)) :
    step s = handOff { s with pc := zextAddr nnn } := by
  rw [step_fetchDecode_ok hf hd]
  rfl

/-- The only fault of the hand-off is the renderer's (R304). -/
theorem handOff_fault {s : State} {f : Fault} (h : handOff s = .fault f) : ∃ e, f = .renderError e := by
  cases hr : s.renderAnswer with
  | ok => cases handOff_ok hr ▸ h
  | error e => exact ⟨e, by simpa [handOff_error hr, eq_comm] using h⟩

/-- The word at PC is a jump to PC itself. -/
structure JumpsToSelf (s : State) (nnn : Addr) : Prop where
  target : s.pc.toNat = nnn.toNat
  word : joinBytes (s.mem.read s.pc.toNat) (s.mem.read (s.pc.toNat + 1)) = 0x1#4 ++ nnn

theorem JumpsToSelf.zextAddr_eq {s : State} {nnn : Addr} (h : JumpsToSelf s nnn) : zextAddr nnn = s.pc :=
  BitVec.eq_of_toNat_eq ((toNat_zextAddr nnn).trans h.target.symm)

/-- Everything one step on a self jump can do: a core that is latched or fetches outside memory does not run it; any
other hands over the state it began with, PC included. -/
theorem JumpsToSelf.step_cases {s : State} {nnn : Addr} (h : JumpsToSelf s nnn) :
    step s = .refused .coreFaulted ∨ (∃ a, step s = .fault (.outOfBounds a)) ∨ step s = handOff s := by
  cases hf : s.faulted with
  | true => exact .inl (step_faulted hf)
  | false =>
    by_cases hpc : s.pc.toNat ≤ 4094
    · have hd : fetchDecode s = .ok (.jp nnn) :=
        fetchDecode_in_memory hpc (h.word ▸ decodeWord_jp nnn)
      have hstep := step_jp hf hd
      rw [h.zextAddr_eq] at hstep
      exact .inr (.inr hstep)
    · exact .inr (.inl (step_out_of_memory hf (by omega)))

theorem JumpsToSelf.step_ne_unknownInstruction {s : State} {nnn : Addr} (h : JumpsToSelf s nnn) (w : Word) :
    step s ≠ .fault (.unknownInstruction w) := by
  intro hw
  obtain hs | ⟨a, hs⟩ | hs := h.step_cases
  · cases hs ▸ hw
  · cases hs ▸ hw
  · obtain ⟨e, he⟩ := handOff_fault (hs ▸ hw)
    cases he

theorem JumpsToSelf.step_next {s t : State} {nnn : Addr} (h : JumpsToSelf s nnn) (ht : step s = .next t) :
    t = tick (handFrame s) := by
  obtain hs | ⟨a, hs⟩ | hs := h.step_cases
  · cases hs ▸ ht
  · cases hs ▸ ht
  · exact (handOff_next (hs ▸ ht)).2

/-- Settles O34: the body replaces PC alone, and a completed step on a self jump only hands the frame over and ticks. -/
theorem jumpSetsPc : Obligations.JumpSetsPc := by
  intro nnn s
  refine ⟨decodeWord_jp nnn, ⟨_, exec_jp nnn s, toNat_zextAddr nnn, keepsRest_setPc s _, ?_⟩, ?_⟩
  · intro hbeyond hf
    exact step_out_of_memory hf (hbeyond.trans_eq (toNat_zextAddr nnn).symm)
  · intro hpc hword
    have hself : JumpsToSelf s nnn := ⟨hpc, hword⟩
    refine ⟨hself.step_ne_unknownInstruction, fun t ht => ?_⟩
    obtain rfl := hself.step_next ht
    exact ⟨rfl, rfl, rfl, rfl, rfl⟩

end Sys2Proof.Machine
end

section
namespace Sys2Proof

/-- Every word `6xnn` decodes as LD Vx, nn with its register and byte (R92). -/
theorem decodeWord_ldImm (x : Reg) (nn : Byte) : decodeWord (0x6#4 ++ fieldOf x ++ nn) = .ok (.ldImm x nn) := by
  rw [decodeWord_ok_iff, parse_imm]
  rfl

end Sys2Proof

namespace Sys2Proof.Machine

/-- The body of LD Vx, nn is one register write (R190). -/
theorem exec_ldImm (x : Reg) (nn : Byte) (s : State) : exec (.ldImm x nn) s = .next (s.setV x nn) := rfl

/-- A register write leaves every other register and every other state element alone. -/
theorem keepsRest_setV (s : State) (x : Reg) (b : Byte) : KeepsRest { v := [x] } s (s.setV x b) where
  v _ hr := getV_setV_ne s b (List.ne_of_not_mem_cons hr)
  i _ := setV_i s x b
  pc _ := setV_pc s x b
  stack _ := setV_stack s x b
  dt _ := setV_dt s x b
  st _ := setV_st s x b
  mem _ _ := by rw [setV_mem]
  fb _ _ _ := by rw [setV_fb]
  rnd _ := ⟨setV_rnd s x b, setV_draws s x b⟩
  stepCount := setV_stepCount s x b
  faulted := setV_faulted s x b
  key := setV_key s x b
  renderAnswer := setV_renderAnswer s x b
  frame := setV_frame s x b
  config := setV_config s x b

/-- Settles O20: the body is a single write of `nn` to V[x], read back there and invisible elsewhere. -/
theorem loadImmediateSetsRegister : Obligations.LoadImmediateSetsRegister := fun x nn s =>
  ⟨decodeWord_ldImm x nn, _, exec_ldImm x nn s, getV_setV_same s x nn, keepsRest_setV s x nn⟩

end Sys2Proof.Machine
end

section
namespace Sys2Proof

/-- Every word `Annn` decodes as LD I with its address (R92). -/
theorem decodeWord_ldI (nnn : Addr) : decodeWord (0xA#4 ++ nnn) = .ok (.ldI nnn) := by
  rw [decodeWord_ok_iff, parse_addr]
  rfl

end Sys2Proof

namespace Sys2Proof.Machine

/-- The body of LD I replaces I in the state and does nothing else (R235). -/
theorem exec_ldI (nnn : Addr) (s : State) : exec (.ldI nnn) s = .next { s with i := zextAddr nnn } := rfl

/-- Replacing I leaves every other state element alone, whatever the new value. -/
theorem keepsRest_setI (s : State) (i : Word) : KeepsRest { i := true } s { s with i := i } where
  v _ _ := rfl
  i h := nomatch h
  pc _ := rfl
  stack _ := rfl
  dt _ := rfl
  st _ := rfl
  mem _ _ := rfl
  fb _ _ _ := rfl
  rnd _ := ⟨rfl, rfl⟩
  stepCount := rfl
  faulted := rfl
  key := rfl
  renderAnswer := rfl
  frame := rfl
  config := rfl

/-- Settles O40: the body replaces I alone, and zero extension keeps the number `nnn`. -/
theorem loadIndexSetsI : Obligations.LoadIndexSetsI := fun nnn s =>
  ⟨decodeWord_ldI nnn, _, exec_ldI nnn s, toNat_zextAddr nnn, keepsRest_setI s (zextAddr nnn)⟩

end Sys2Proof.Machine
end

section
namespace Sys2Proof

/-! ## Decoding an encoded instruction -/

theorem decodeWord_of_parse {w : Word} {f : Fields} {i : Instr} (hf : parse (hiByte w) (loByte w) = f)
    (hi : select f = some i) : decodeWord w = .ok i := by
  rw [decodeWord_ok_iff, hf, hi]

/-- Once the fields of its word are known, the opcode map of R92 picks each instruction by computation. -/
theorem decodeWord_encode (i : Instr) : decodeWord (encode i) = .ok i := by
  cases i with
  | cls | ret => rfl
  | jp nnn | call nnn | ldI nnn | jpV0 nnn => exact decodeWord_of_parse (parse_addr _ _) rfl
  | seImm x nn | sneImm x nn | ldImm x nn | addImm x nn | rnd x nn => exact decodeWord_of_parse (parse_imm _ _ _) rfl
  | skp x | sknp x | ldVxDt x | ldVxK x | ldDtVx x | ldStVx x | addI x | ldF x | ldB x | storeRegs x
  | loadRegs x => exact decodeWord_of_parse (parse_imm _ _ _) rfl
  | seReg x y | sneReg x y | ldReg x y | orReg x y | andReg x y | xorReg x y | addReg x y | subReg x y
  | shr x y | subn x y | shl x y => exact decodeWord_of_parse (parse_regs _ _ _ _) rfl
  | drw x y n => exact decodeWord_of_parse (parse_regs _ _ _ _) rfl

theorem decode_encodeBytes (i : Instr) (rest : List Byte) : decode (encodeBytes i ++ rest) = .ok (i, rest) := by
  simp only [encodeBytes, List.cons_append, List.nil_append, decode, joinBytes_hi_lo, decodeWord_encode]

/-- Settles O4: the fields of an instruction's word are its operands, and its two bytes join to that word. -/
theorem decodeEncodeRoundTrip : Obligations.DecodeEncodeRoundTrip := fun i rest =>
  ⟨decodeWord_encode i, decode_encodeBytes i rest⟩

/-- Settles O3: each pattern is the word of its instruction, since a field is read back as the register it names. -/
theorem everyPatternDecodes : Obligations.EveryPatternDecodes := fun x y n nn nnn =>
  ⟨decodeWord_encode .cls, decodeWord_encode .ret, decodeWord_encode (.jp nnn), decodeWord_encode (.call nnn),
    decodeWord_encode (.seImm (regOf x) nn), decodeWord_encode (.sneImm (regOf x) nn),
    decodeWord_encode (.seReg (regOf x) (regOf y)), decodeWord_encode (.ldImm (regOf x) nn),
    decodeWord_encode (.addImm (regOf x) nn), decodeWord_encode (.ldReg (regOf x) (regOf y)),
    decodeWord_encode (.orReg (regOf x) (regOf y)), decodeWord_encode (.andReg (regOf x) (regOf y)),
    decodeWord_encode (.xorReg (regOf x) (regOf y)), decodeWord_encode (.addReg (regOf x) (regOf y)),
    decodeWord_encode (.subReg (regOf x) (regOf y)), decodeWord_encode (.shr (regOf x) (regOf y)),
    decodeWord_encode (.subn (regOf x) (regOf y)), decodeWord_encode (.shl (regOf x) (regOf y)),
    decodeWord_encode (.sneReg (regOf x) (regOf y)), decodeWord_encode (.ldI nnn), decodeWord_encode (.jpV0 nnn),
    decodeWord_encode (.rnd (regOf x) nn), decodeWord_encode (.drw (regOf x) (regOf y) n),
    decodeWord_encode (.skp (regOf x)), decodeWord_encode (.sknp (regOf x)), decodeWord_encode (.ldVxDt (regOf x)),
    decodeWord_encode (.ldVxK (regOf x)), decodeWord_encode (.ldDtVx (regOf x)), decodeWord_encode (.ldStVx (regOf x)),
    decodeWord_encode (.addI (regOf x)), decodeWord_encode (.ldF (regOf x)), decodeWord_encode (.ldB (regOf x)),
    decodeWord_encode (.storeRegs (regOf x)), decodeWord_encode (.loadRegs (regOf x))⟩

/-! ## The word behind decoded fields -/

theorem concat_imm_assoc (op x : Nibble) (nn : Byte) : (op ++ x ++ nn : Word) = op ++ (x ++ nn : Addr) :=
  BitVec.append_assoc

theorem concat_regs_assoc (op x y n : Nibble) :
    (op ++ x ++ y ++ n : Word) = op ++ (x ++ (y ++ n : Byte) : Addr) := by
  apply BitVec.eq_of_toNat_eq
  simp only [toNat_concat]
  omega

/-- Overlapping fields that agree (R81) leave no operand bit outside the selected instruction: its word is
`opcode:nnn`. -/
theorem encode_of_select {f : Fields} {i : Instr} (hf : f.wellFormed = true) (h : select f = some i) :
    encode i = f.opcode ++ f.nnn := by
  obtain ⟨op, x, y, n, nn, nnn⟩ := f
  obtain ⟨hnn, hnnn⟩ : nn = y ++ n ∧ nnn = x ++ nn := by simpa [Fields.wellFormed] using hf
  have himm (op : Nibble) : (op ++ fieldOf (regOf x) ++ nn : Word) = op ++ nnn := by
    rw [hnnn, fieldOf_regOf, concat_imm_assoc]
  have hregs (op : Nibble) : (op ++ fieldOf (regOf x) ++ fieldOf (regOf y) ++ n : Word) = op ++ nnn := by
    rw [hnnn, hnn, fieldOf_regOf, fieldOf_regOf, concat_regs_assoc]
  unfold select at h
  dsimp only at h ⊢
  -- Case h_(k + 1) is the opcode nibble k; the last one is no nibble.
  split at h
  case h_1 => split at h <;> cases h <;> rfl
  case h_2 | h_3 | h_11 | h_12 => cases h; rfl
  case h_4 | h_5 | h_7 | h_8 | h_13 => cases h; exact himm _
  case h_6 | h_9 | h_10 => split at h <;> cases h <;> exact hregs _
  case h_14 => cases h; exact hregs _
  case h_15 | h_16 => split at h <;> cases h <;> exact himm _
  case h_17 => cases h

theorem parse_concat (hi lo : Byte) : (parse hi lo).opcode ++ (parse hi lo).nnn = joinBytes hi lo := by
  apply BitVec.eq_of_toNat_eq
  simp only [parse, joinBytes, toNat_concat, toNat_field]
  omega

/-- Settles O5: the instruction's word is `opcode:nnn` of the decoded fields, which is the word they were read from. -/
theorem encodeDecodeRoundTrip : Obligations.EncodeDecodeRoundTrip := by
  intro w i h
  rw [decodeWord_ok_iff] at h
  rw [encode_of_select (parse_wellFormed _ _) h, parse_concat, joinBytes_hi_lo]

/-! ## Unknown words (R93) -/

theorem nibble_mem : ∀ b : Nibble,
    b ∈ [0x0#4, 0x1#4, 0x2#4, 0x3#4, 0x4#4, 0x5#4, 0x6#4, 0x7#4, 0x8#4, 0x9#4, 0xA#4, 0xB#4, 0xC#4, 0xD#4, 0xE#4,
      0xF#4] := by
  decide

/-- The nibbles and literals at which the opcode map has no row (R85, R87). -/
theorem select_eq_none_iff (f : Fields) :
    select f = none ↔
      (f.opcode = 0x0 ∧ f.nnn ≠ 0x0E0 ∧ f.nnn ≠ 0x0EE) ∨ (f.opcode = 0x5 ∧ f.n ≠ 0) ∨
      (f.opcode = 0x8 ∧ f.n ∈ [0x8#4, 0x9#4, 0xA#4, 0xB#4, 0xC#4, 0xD#4, 0xF#4]) ∨
      (f.opcode = 0x9 ∧ f.n ≠ 0) ∨ (f.opcode = 0xE ∧ f.nn ∉ [0x9E#8, 0xA1#8]) ∨
      (f.opcode = 0xF ∧ f.nn ∉ [0x07#8, 0x0A#8, 0x15#8, 0x18#8, 0x1E#8, 0x29#8, 0x33#8, 0x55#8, 0x65#8]) := by
  obtain ⟨op, x, y, n, nn, nnn⟩ := f
  unfold select
  dsimp only
  -- Case h_(k + 1) is the opcode nibble k; the last one is no nibble.
  split
  case h_1 | h_6 | h_10 | h_15 | h_16 => split <;> simp_all
  case h_9 =>
    split
    case h_10 =>
      have := nibble_mem n
      simp_all
    all_goals simp
  case h_17 =>
    have := nibble_mem op
    simp_all
  all_goals simp

/-- Settles O6: the opcode map has no row exactly there, and each field is its slice of the word's number. -/
theorem unknownWordsAreThoseListed : Obligations.UnknownWordsAreThoseListed := by
  intro w
  have hw : w.toNat = (hiByte w).toNat * 256 + (loByte w).toNat := by
    rw [← toNat_joinBytes, joinBytes_hi_lo]
  obtain ⟨hop, -, -, hn, hnn, hnnn⟩ := fieldsOfEveryWord.1 (hiByte w) (loByte w)
  rw [← hw] at hop hn hnn hnnn
  simp only [decodeWord_error_iff, true_and, select_eq_none_iff, List.mem_cons, List.not_mem_nil, or_false, ne_eq,
    ← BitVec.toNat_inj, hop, hn, hnn, hnnn, BitVec.ofNat_eq_ofNat, BitVec.toNat_ofNat, Nat.reduceMod, Nat.reducePow]
  refine or_congr_left ?_
  omega

/-- Settles O1: each known word is the word of its instruction, each unknown one stands in R93's list. -/
theorem sampleWordsDecode : Obligations.SampleWordsDecode := by
  have unknown (w : Word) := (unknownWordsAreThoseListed w).2
  exact ⟨decodeWord_encode .cls, decodeWord_encode .ret, decodeWord_encode (.shl 10 11),
    decodeWord_encode (.drw 1 2 3), decodeWord_encode (.loadRegs 1), decodeWord_encode (.ldImm 0 0x2A),
    decodeWord_encode (.ldI 0), decodeWord_encode (.jp 0x200), unknown 0x0000 (by decide), unknown 0x00E1 (by decide),
    unknown 0x0123 (by decide), unknown 0x5121 (by decide), unknown 0x8AB8 (by decide), unknown 0x9AB1 (by decide),
    unknown 0xE09F (by decide), unknown 0xF0F0 (by decide), unknown 0xFFFF (by decide)⟩

end Sys2Proof
end

section
namespace Sys2Proof.Machine

/-! ## What the shared accesses answer -/

theorem memReadBlock_fits (s : State) {a len : Nat} (h : a + len ≤ 4096) :
    s.memReadBlock a len = .ok (s.mem.block a len) :=
  if_neg (not_lt.2 h)

theorem memReadBlock_beyond (s : State) {a len : Nat} (h : a + len > 4096) :
    s.memReadBlock a len = .error (.outOfBounds a) :=
  if_pos h

/-- Settles O8: the block is the list of its bytes, and the check is on its end. -/
theorem blockReadBytesAndBounds : Obligations.BlockReadBytesAndBounds := by
  intro s a len
  refine ⟨memReadBlock_beyond s, fun hfit => ⟨_, memReadBlock_fits s hfit, s.mem.length_block a len, ?_⟩⟩
  intro k hk
  have hk' : k < (s.mem.block a len).length := hk.trans_eq (s.mem.length_block a len).symm
  rw [List.getElem?_eq_getElem hk', Memory.getElem_block]

/-- Whether the key a register's value names is down: a value of 16 or more names no key (R262). -/
def State.keyDown (s : State) (b : Byte) : Bool := decide (s.key[b.toNat]? = some true)

theorem keyDown_lt (s : State) {b : Byte} (h : b.toNat < 16) : s.keyDown b = s.key[b.toNat] := by
  simp [State.keyDown, h]

theorem keyDown_ge (s : State) {b : Byte} (h : b.toNat ≥ 16) : s.keyDown b = false := by
  simp [State.keyDown, h]

theorem pressed_fault (s : State) {b : Byte} (h : b.toNat ≥ 16) (hk : s.config.keyOob = .fault) :
    s.pressed b = .error (.outOfBounds b.toNat) := by
  simp [State.pressed, not_lt.2 h, hk]

theorem pressed_ok (s : State) {b : Byte} (h : ¬(b.toNat ≥ 16 ∧ s.config.keyOob = .fault)) :
    s.pressed b = .ok (s.keyDown b) := by
  by_cases hb : b.toNat < 16
  · rw [keyDown_lt s hb, State.pressed, dif_pos hb]
  · have hk : s.config.keyOob = .notPressed := by
      cases hk : s.config.keyOob with
      | fault => exact absurd ⟨not_lt.1 hb, hk⟩ h
      | notPressed => rfl
    simp [State.pressed, hb, hk, keyDown_ge s (not_lt.1 hb)]

/-- The register file after LD Vx, [I] (R240): irreducible, since `getV_loadedRegs` says all that is to know of it and
comparing states should not compute it. -/
@[irreducible]
def State.loadedRegs (s : State) (x : Reg) : Vector Byte 16 :=
  Vector.ofFn fun q : Reg => if q ≤ x then s.mem.read (s.indexAddr + q.val) else s.getV q

theorem getV_loadedRegs (s : State) (x q : Reg) :
    ({ s with v := s.loadedRegs x } : State).getV q =
      if q ≤ x then s.mem.read (s.indexAddr + q.val) else s.getV q := by
  simp [State.getV, State.loadedRegs]

/-- The register file is its sixteen registers. -/
theorem v_ext {v w : Vector Byte 16} (s : State)
    (h : ∀ q, ({ s with v := v } : State).getV q = ({ s with v := w } : State).getV q) : v = w :=
  Vector.ext fun k hk => h ⟨k, hk⟩

theorem loadLoop_fits (s : State) (x : Reg) (h : s.indexAddr + (x.val + 1) ≤ 4096) :
    s.loadLoop s.indexAddr 0 (x.val + 1) = .ok { s with v := s.loadedRegs x } := by
  obtain ⟨regs, hload, hregs⟩ := loadLoop_ok s s.indexAddr 0 (x.val + 1) (by omega) (by omega)
  have hv : regs = s.loadedRegs x := by
    refine v_ext s fun q => ?_
    have hq : (0 ≤ q.val ∧ q.val < 0 + (x.val + 1)) ↔ q ≤ x := by
      rw [Fin.le_def]
      omega
    rw [hregs q, getV_loadedRegs]
    simp only [hq]
  rw [hload, hv]

theorem storeLoop_fits (s : State) (x : Reg) (h : s.indexAddr + (x.val + 1) ≤ 4096) :
    s.storeLoop s.indexAddr 0 (x.val + 1) =
      .ok { s with mem := s.mem.writeBytes s.indexAddr (s.regsFrom 0 (x.val + 1)) } := by
  rw [storeLoop_eq s s.indexAddr 0 (x.val + 1) (by omega)]
  exact memWriteBytes_ok s _ _ (by simpa using h)

theorem storeLoop_beyond (s : State) (x : Reg) (h : s.indexAddr + (x.val + 1) > 4096) :
    s.storeLoop s.indexAddr 0 (x.val + 1) = .error (.outOfBounds (max s.indexAddr 4096)) := by
  rw [storeLoop_eq s s.indexAddr 0 (x.val + 1) (by omega)]
  exact memWriteBytes_error s _ _ (by simp [State.regsFrom]) (by simpa using h)

/-! ## What an instruction body answers -/

/-- Frame buffer and collision after DRW Vx, Vy, n (R141 to R143). -/
def State.drawn (s : State) (x y : Reg) (n : Nibble) : FrameBuffer × Bool :=
  drawSprite (s.fb, false) ((s.getV x).toNat % 64) ((s.getV y).toNat % 32) (s.mem.block s.indexAddr n.toNat)

/-- The state a body leaves when `FaultRule` names no fault for it (`exec_of_not_faultRule`). -/
def bodyEnd (i : Instr) (s : State) : State :=
  match i with
  | .cls => { s with fb := FrameBuffer.blank }
  | .ret => { s with pc := s.stack.headD s.pc, stack := s.stack.tail }
  | .jp nnn => { s with pc := zextAddr nnn }
  | .call nnn => { s with stack := s.pc :: s.stack, pc := zextAddr nnn }
  | .seImm x nn => s.skipIf (s.getV x == nn)
  | .sneImm x nn => s.skipIf (s.getV x != nn)
  | .seReg x y => s.skipIf (s.getV x == s.getV y)
  | .ldImm x nn => s.setV x nn
  | .addImm x nn => s.setV x (s.getV x + nn)
  | .ldReg x y => s.setV x (s.getV y)
  | .orReg x y => s.setV x (s.getV x ||| s.getV y)
  | .andReg x y => s.setV x (s.getV x &&& s.getV y)
  | .xorReg x y => s.setV x (s.getV x ^^^ s.getV y)
  | .addReg x y => s.setResultFlag x (s.getV x + s.getV y) (carry (s.getV x) (s.getV y))
  | .subReg x y => s.setResultFlag x (s.getV x - s.getV y) (noBorrow (s.getV x) (s.getV y))
  | .shr x y => s.setResultFlag x (s.shiftSource x y >>> 1) (shiftedOutLow (s.shiftSource x y))
  | .subn x y => s.setResultFlag x (s.getV y - s.getV x) (noBorrow (s.getV y) (s.getV x))
  | .shl x y => s.setResultFlag x (s.shiftSource x y <<< 1) (shiftedOutHigh (s.shiftSource x y))
  | .sneReg x y => s.skipIf (s.getV x != s.getV y)
  | .ldI nnn => { s with i := zextAddr nnn }
  | .jpV0 nnn => { s with pc := zextAddr nnn + zextByte (s.jumpOffset nnn) }
  | .rnd x nn => s.consumeDraw.setV x (if s.config.rndAndNn then s.rnd &&& nn else s.rnd)
  | .drw x y n => ({ s with fb := (s.drawn x y n).1 } : State).setFlag (s.drawn x y n).2
  | .skp x => s.skipIf (s.keyDown (s.getV x))
  | .sknp x => s.skipIf (!s.keyDown (s.getV x))
  | .ldVxDt x => s.setV x s.dt
  | .ldVxK x =>
    match lowestPressed s.key with
    | some k => s.setV x (BitVec.ofNat 8 k.val)
    | none => { s with pc := s.pc - 2 }
  | .ldDtVx x => { s with dt := s.getV x }
  | .ldStVx x => { s with st := s.getV x }
  | .addI x => { s with i := s.i + zextByte (s.getV x) }
  | .ldF x => { s with i := BitVec.ofNat 16 (s.config.fontBase.toNat + (s.getV x).toNat * 5) }
  | .ldB x => { s with mem := s.mem.writeBytes s.indexAddr (decimalDigits (s.getV x)) }
  | .storeRegs x => { s with mem := s.mem.writeBytes s.indexAddr (s.regsFrom 0 (x.val + 1)) }
  | .loadRegs x => { s with v := s.loadedRegs x }

/-- A body faults wherever its row of R301, R302 says, with the fault it says. -/
theorem exec_of_faultRule {i : Instr} {s : State} {f : Fault} (h : FaultRule i s f) : exec i s = .fault f := by
  cases i with
  | ret =>
    obtain ⟨hs, rfl⟩ := h
    simp only [exec, execRet, hs, raise]
  | call nnn =>
    obtain ⟨hs, rfl⟩ := h
    exact if_pos hs
  | drw x y n =>
    obtain ⟨hi, rfl⟩ := h
    simp only [exec, execDrw, State.indexAddr, memReadBlock_beyond s hi, raise]
  | skp x =>
    obtain ⟨hv, hk, rfl⟩ := h
    simp only [exec, execSkp, pressed_fault s hv hk, raise]
  | sknp x =>
    obtain ⟨hv, hk, rfl⟩ := h
    simp only [exec, execSknp, pressed_fault s hv hk, raise]
  | ldB x =>
    obtain ⟨hi, rfl⟩ := h
    exact congrArg complete (memWriteBytes_error s _ (decimalDigits (s.getV x)) (List.cons_ne_nil _ _) hi)
  | storeRegs x =>
    obtain ⟨hi, rfl⟩ := h
    exact congrArg complete (storeLoop_beyond s x hi)
  | loadRegs x =>
    obtain ⟨hi, rfl⟩ := h
    exact congrArg complete
      (loadLoop_error s _ 0 (x.val + 1) (Nat.succ_pos _) (by omega) hi)
  | _ => exact h.elim

/-- Where its row names no fault a body completes. -/
theorem exec_of_not_faultRule {i : Instr} {s : State} (h : ∀ f, ¬FaultRule i s f) :
    exec i s = .next (bodyEnd i s) := by
  cases i with
  | ret =>
    obtain ⟨top, rest, hs⟩ := List.exists_cons_of_ne_nil fun hs => h _ ⟨hs, rfl⟩
    simp only [exec, execRet, bodyEnd, hs, List.headD_cons, List.tail_cons]
  | call nnn => exact if_neg fun hs => h _ ⟨hs, rfl⟩
  | drw x y n =>
    have hfit : s.indexAddr + n.toNat ≤ 4096 := not_lt.1 fun hi => h _ ⟨hi, rfl⟩
    simp only [exec, execDrw, memReadBlock_fits s hfit]
    rfl
  | skp x => simp only [exec, execSkp, bodyEnd, pressed_ok s fun ⟨hv, hk⟩ => h _ ⟨hv, hk, rfl⟩]
  | sknp x => simp only [exec, execSknp, bodyEnd, pressed_ok s fun ⟨hv, hk⟩ => h _ ⟨hv, hk, rfl⟩]
  | ldVxK x =>
    simp only [exec, execLdVxK, bodyEnd]
    cases lowestPressed s.key <;> rfl
  | ldB x =>
    have hfit : s.indexAddr + (decimalDigits (s.getV x)).length ≤ 4096 := not_lt.1 fun hi => h _ ⟨hi, rfl⟩
    exact congrArg complete (memWriteBytes_ok s _ _ hfit)
  | storeRegs x => exact congrArg complete (storeLoop_fits s x (not_lt.1 fun hi => h _ ⟨hi, rfl⟩))
  | loadRegs x => exact congrArg complete (loadLoop_fits s x (not_lt.1 fun hi => h _ ⟨hi, rfl⟩))
  | _ => rfl

/-- Everything a body can answer: the fault of its row, or the state `bodyEnd` where the row names none. -/
theorem exec_cases (i : Instr) (s : State) :
    (∃ f, FaultRule i s f ∧ exec i s = .fault f) ∨
      (∀ f, ¬FaultRule i s f) ∧ exec i s = .next (bodyEnd i s) := by
  by_cases h : ∃ f, FaultRule i s f
  · obtain ⟨f, hf⟩ := h
    exact .inl ⟨f, hf, exec_of_faultRule hf⟩
  · have hnone := not_exists.1 h
    exact .inr ⟨hnone, exec_of_not_faultRule hnone⟩

theorem exec_next {i : Instr} {s t : State} (h : exec i s = .next t) :
    (∀ f, ¬FaultRule i s f) ∧ t = bodyEnd i s := by
  obtain ⟨f, -, he⟩ | ⟨hnone, he⟩ := exec_cases i s
  · cases he ▸ h
  · exact ⟨hnone, Host.Outcome.next.inj (h.symm.trans he)⟩

/-- Settles O54: a body answers the fault of its row or completes. -/
theorem faultsOnlyWhereTheRulesSay : Obligations.FaultsOnlyWhereTheRulesSay := by
  intro i s
  obtain ⟨g, hg, he⟩ | ⟨-, he⟩ := exec_cases i s
  · rw [he]
    refine ⟨fun f hf => ?_, nofun⟩
    obtain rfl := Host.Outcome.fault.inj hf
    exact hg
  · rw [he]
    exact ⟨nofun, nofun⟩

/-- Settles O31: it is the row of DRW. -/
theorem drawBeyondMemoryFaults : Obligations.DrawBeyondMemoryFaults := fun _ _ _ _ hbeyond =>
  exec_of_faultRule ⟨hbeyond, rfl⟩

/-- Settles O45: it is the row of each of the three. -/
theorem indexedAccessFaultsAtFirstBadAddress : Obligations.IndexedAccessFaultsAtFirstBadAddress := fun _ _ =>
  ⟨fun hbeyond => exec_of_faultRule ⟨hbeyond, rfl⟩,
    fun hbeyond => ⟨exec_of_faultRule ⟨hbeyond, rfl⟩, exec_of_faultRule ⟨hbeyond, rfl⟩⟩⟩

end Sys2Proof.Machine
end

section
namespace Sys2Proof.Machine

/-! ## Frames of the state updates -/

theorem KeepsRest.refl (w : Touch) (s : State) : KeepsRest w s s where
  v _ _ := rfl
  i _ := rfl
  pc _ := rfl
  stack _ := rfl
  dt _ := rfl
  st _ := rfl
  mem _ _ := rfl
  fb _ _ _ := rfl
  rnd _ := ⟨rfl, rfl⟩
  stepCount := rfl
  faulted := rfl
  key := rfl
  renderAnswer := rfl
  frame := rfl
  config := rfl

theorem keepsRest_setResultFlag (s : State) (x : Reg) (b : Byte) (f : Bool) :
    KeepsRest { v := [x, Reg.vf] } s (s.setResultFlag x b f) :=
  { KeepsRest.refl _ s with
    v := fun r hr => by
      obtain ⟨hx, hvf⟩ : r ≠ x ∧ r ≠ Reg.vf := by simpa using hr
      rw [getV_setResultFlag, if_neg hvf, if_neg hx] }

theorem keepsRest_consumeDraw_setV (s : State) (x : Reg) (b : Byte) :
    KeepsRest { v := [x], rnd := true } s (s.consumeDraw.setV x b) :=
  { KeepsRest.refl _ s with
    v := (keepsRest_setV s.consumeDraw x b).v
    rnd := nofun }

theorem keepsRest_setFb (s : State) (fb : FrameBuffer) : KeepsRest { fb := true } s { s with fb := fb } :=
  { KeepsRest.refl _ s with fb := nofun }

theorem keepsRest_setFb_setFlag (s : State) (fb : FrameBuffer) (f : Bool) :
    KeepsRest { v := [Reg.vf], fb := true } s (({ s with fb := fb } : State).setFlag f) :=
  { KeepsRest.refl _ s with
    v := (keepsRest_setV { s with fb := fb } Reg.vf (flagByte f)).v
    fb := nofun }

theorem keepsRest_setPcStack (s : State) (pc : Word) (stack : List Word) :
    KeepsRest { pc := true, stack := true } s { s with pc := pc, stack := stack } :=
  { KeepsRest.refl _ s with pc := nofun, stack := nofun }

theorem keepsRest_setDt (s : State) (dt : Byte) : KeepsRest { dt := true } s { s with dt := dt } :=
  { KeepsRest.refl _ s with dt := nofun }

theorem keepsRest_setSt (s : State) (st : Byte) : KeepsRest { st := true } s { s with st := st } :=
  { KeepsRest.refl _ s with st := nofun }

theorem keepsRest_writeBytes (s : State) (base : Nat) (bs : List Byte) :
    KeepsRest { base := base, len := bs.length } s { s with mem := s.mem.writeBytes base bs } :=
  { KeepsRest.refl _ s with
    mem := fun a ha => by rw [Memory.read_writeBytes, dif_neg ha] }

theorem keepsRest_loadedRegs (s : State) (x : Reg) :
    KeepsRest { v := (List.finRange 16).filter (fun r => r ≤ x) } s { s with v := s.loadedRegs x } :=
  { KeepsRest.refl _ s with
    v := fun r hr => by
      have hx : ¬r ≤ x := by simpa using hr
      rw [getV_loadedRegs, if_neg hx] }

/-! ## The frame of every instruction -/

/-- What the rule of each instruction lets it change; its registers are those of `destRegs`. -/
def touchOf (i : Instr) (s : State) : Touch :=
  match i with
  | .cls => { fb := true }
  | .ret | .call _ => { pc := true, stack := true }
  | .jp _ | .jpV0 _ | .seImm _ _ | .sneImm _ _ | .seReg _ _ | .sneReg _ _ | .skp _ | .sknp _ => { pc := true }
  | .ldI _ | .addI _ | .ldF _ => { i := true }
  | .rnd x _ => { v := [x], rnd := true }
  | .drw _ _ _ => { v := [Reg.vf], fb := true }
  | .ldVxK x => { v := [x], pc := true }
  | .ldDtVx _ => { dt := true }
  | .ldStVx _ => { st := true }
  | .ldB _ => { base := s.indexAddr, len := 3 }
  | .storeRegs x => { base := s.indexAddr, len := x.val + 1 }
  | i => { v := destRegs i }

theorem touchOf_v (i : Instr) (s : State) : (touchOf i s).v = destRegs i := by
  cases i <;> rfl

theorem bodyEnd_keepsRest (i : Instr) (s : State) : KeepsRest (touchOf i s) s (bodyEnd i s) := by
  cases i with
  | cls => exact keepsRest_setFb s _
  | ret => exact keepsRest_setPcStack s _ _
  | call nnn => exact keepsRest_setPcStack s _ _
  | jp nnn | jpV0 nnn => exact keepsRest_setPc s _
  | seImm x nn | sneImm x nn => exact keepsRest_setPc s _
  | seReg x y | sneReg x y => exact keepsRest_setPc s _
  | skp x | sknp x => exact keepsRest_setPc s _
  | ldI nnn => exact keepsRest_setI s _
  | addI x | ldF x => exact keepsRest_setI s _
  | ldImm x nn | addImm x nn => exact keepsRest_setV s x _
  | ldReg x y | orReg x y | andReg x y | xorReg x y => exact keepsRest_setV s x _
  | ldVxDt x => exact keepsRest_setV s x _
  | addReg x y | subReg x y | shr x y | subn x y | shl x y => exact keepsRest_setResultFlag s x _ _
  | rnd x nn => exact keepsRest_consumeDraw_setV s x _
  | drw x y n => exact keepsRest_setFb_setFlag s _ _
  | ldVxK x =>
    simp only [bodyEnd]
    cases lowestPressed s.key with
    | some k => exact { keepsRest_setV s x (BitVec.ofNat 8 k.val) with pc := nofun }
    | none => exact { keepsRest_setPc s (s.pc - 2) with v := fun _ _ => rfl }
  | ldDtVx x => exact keepsRest_setDt s _
  | ldStVx x => exact keepsRest_setSt s _
  | ldB x => exact keepsRest_writeBytes s _ (decimalDigits (s.getV x))
  | storeRegs x =>
    have := keepsRest_writeBytes s s.indexAddr (s.regsFrom 0 (x.val + 1))
    rwa [length_regsFrom] at this
  | loadRegs x => exact keepsRest_loadedRegs s x

theorem exec_keepsRest {i : Instr} {s t : State} (h : exec i s = .next t) : KeepsRest (touchOf i s) s t := by
  rw [(exec_next h).2]
  exact bodyEnd_keepsRest i s

/-- Settles O50: every other instruction's frame holds I. -/
theorem onlyThreeInstructionsChangeI : Obligations.OnlyThreeInstructionsChangeI := by
  intro i s t h hne
  have hframe := (exec_keepsRest h).i
  cases i with
  | ldI nnn => exact .inl ⟨nnn, rfl⟩
  | addI x => exact .inr (.inl ⟨x, rfl⟩)
  | ldF x => exact .inr (.inr ⟨x, rfl⟩)
  | _ => exact absurd (hframe rfl) hne

/-- Settles O51: the frame's registers are the destinations. -/
theorem registersChangeOnlyWhereNamed : Obligations.RegistersChangeOnlyWhereNamed := by
  intro i s t h r hr
  exact (exec_keepsRest h).v r (touchOf_v i s ▸ hr)

/-- Settles O52: an element that changed is one the instruction's frame does not hold. -/
theorem eachStateHasItsWriters : Obligations.EachStateHasItsWriters := by
  intro i s t h
  have hframe := exec_keepsRest h
  refine ⟨fun hne => ?stack, fun a hne => ?mem, fun q r hne => ?fb, fun hne => ?dt, fun hne => ?st, fun hne => ?rnd,
    hframe.stepCount, hframe.faulted, hframe.key, hframe.renderAnswer, hframe.frame, hframe.config⟩
  case stack =>
    have hkeep := mt hframe.stack hne
    cases i with
    | ret => exact .inl rfl
    | call nnn => exact .inr ⟨nnn, rfl⟩
    | _ => exact absurd rfl hkeep
  case mem =>
    have hkeep := mt (hframe.mem a) hne
    cases i with
    | ldB x => exact .inl ⟨x, rfl⟩
    | storeRegs x => exact .inr ⟨x, rfl⟩
    | _ => exact absurd (fun hin => Nat.not_lt_zero a hin.2) hkeep
  case fb =>
    have hkeep := mt (fun hfb => hframe.fb hfb q r) hne
    cases i with
    | cls => exact .inl rfl
    | drw x y n => exact .inr ⟨x, y, n, rfl⟩
    | _ => exact absurd rfl hkeep
  case dt =>
    have hkeep := mt hframe.dt hne
    cases i with
    | ldDtVx x => exact ⟨x, rfl⟩
    | _ => exact absurd rfl hkeep
  case st =>
    have hkeep := mt hframe.st hne
    cases i with
    | ldStVx x => exact ⟨x, rfl⟩
    | _ => exact absurd rfl hkeep
  case rnd =>
    have hkeep := mt hframe.rnd (fun hsame => hne.elim (absurd hsame.2) (absurd hsame.1))
    cases i with
    | rnd x nn => exact ⟨x, nn, rfl⟩
    | _ => exact absurd rfl hkeep

end Sys2Proof.Machine
end

section
namespace Sys2Proof

/-- The ranges of R8, as numbers. -/
theorem Config.wellFormed_iff (c : Config) :
    c.wellFormed = true ↔
      c.fontBase.toNat + 80 ≤ 4096 ∧ 1 ≤ c.timerPeriod ∧ ∀ d, c.stackLimit = some d → 1 ≤ d := by
  simp only [Config.wellFormed, Config.fontFits, Config.periodPositive, Config.limitPositive, Bool.and_eq_true,
    decide_eq_true_eq, and_assoc]
  cases c.stackLimit <;> simp

end Sys2Proof

namespace Sys2Proof.Machine

/-! ## What an instruction makes of PC, the stack and memory -/

theorem lowestPressed_eq_some_iff (key : KeyState) (k : Fin 16) :
    lowestPressed key = some k ↔ key[k.val] = true ∧ ∀ j : Fin 16, j < k → key[j.val] = false := by
  rw [lowestPressed, ← Fin.find?_eq_find?_finRange, Fin.find?_eq_some_iff]

theorem lowestPressed_eq_none_iff (key : KeyState) :
    lowestPressed key = none ↔ ∀ k : Fin 16, key[k.val] = false := by
  rw [lowestPressed, ← Fin.find?_eq_find?_finRange, Fin.find?_eq_none_iff]

/-- The sum of JP V0 stays in 16 bits: it is at most 0xFFF + 0xFF (R168). -/
theorem toNat_jumpTarget (nnn : Addr) (b : Byte) :
    (zextAddr nnn + zextByte b).toNat = nnn.toNat + b.toNat := by
  unfold zextAddr zextByte
  bv_omega

theorem bodyEnd_pc_ldVxK (x : Reg) (s : State) :
    (bodyEnd (.ldVxK x) s).pc = if ∃ k : Fin 16, s.key[k.val] = true then s.pc else s.pc - 2 := by
  simp only [bodyEnd]
  cases hk : lowestPressed s.key with
  | some k =>
    rw [if_pos ⟨k, ((lowestPressed_eq_some_iff s.key k).1 hk).1⟩]
    rfl
  | none =>
    have hnone := (lowestPressed_eq_none_iff s.key).1 hk
    rw [if_neg (by simpa using hnone)]

/-- Settles O53: PC of the completed body, rule by rule. -/
theorem pcChangesOnlyAsListed : Obligations.PcChangesOnlyAsListed := by
  intro i s t h
  obtain ⟨hnone, rfl⟩ := exec_next h
  cases i with
  | ret =>
    obtain ⟨top, rest, hs⟩ := List.exists_cons_of_ne_nil fun hs => hnone _ ⟨hs, rfl⟩
    simp only [PcRule, bodyEnd, hs, List.head?_cons, List.headD_cons]
  | jp nnn | call nnn => exact toNat_zextAddr nnn
  | jpV0 nnn => exact toNat_jumpTarget nnn _
  | seImm x nn | sneImm x nn => simp [PcRule, bodyEnd]
  | seReg x y | sneReg x y => simp [PcRule, bodyEnd]
  | skp x | sknp x => simp [PcRule, bodyEnd, State.keyDown]
  | ldVxK x => exact bodyEnd_pc_ldVxK x s
  | _ => rfl

theorem exec_stack_cases {i : Instr} {s t : State} (h : exec i s = .next t) :
    t.stack = s.stack ∨ t.stack = s.stack.tail ∨
      t.stack = s.pc :: s.stack ∧ s.config.stackLimit ≠ some s.stack.length := by
  have hframe := exec_keepsRest h
  obtain ⟨hnone, rfl⟩ := exec_next h
  cases i with
  | ret => exact .inr (.inl rfl)
  | call nnn => exact .inr (.inr ⟨rfl, fun hfull => hnone _ ⟨hfull, rfl⟩⟩)
  | _ => exact .inl (hframe.stack rfl)

/-- Memory changes only by bytes copied to addresses that all lie in it. -/
theorem exec_mem_cases {i : Instr} {s t : State} (h : exec i s = .next t) :
    t.mem = s.mem ∨ ∃ a bs, a + bs.length ≤ 4096 ∧ t.mem = s.mem.writeBytes a bs := by
  obtain ⟨hnone, rfl⟩ := exec_next h
  cases i with
  | ldB x => exact .inr ⟨_, decimalDigits (s.getV x), not_lt.1 fun hi => hnone _ ⟨hi, rfl⟩, rfl⟩
  | storeRegs x =>
    have hfit : s.indexAddr + (x.val + 1) ≤ 4096 := not_lt.1 fun hi => hnone _ ⟨hi, rfl⟩
    exact .inr ⟨_, s.regsFrom 0 (x.val + 1), by rwa [length_regsFrom], rfl⟩
  | ldVxK x =>
    simp only [bodyEnd]
    cases lowestPressed s.key <;> exact .inl rfl
  | _ => exact .inl rfl

theorem exec_keeps_wf {i : Instr} {s t : State} (h : exec i s = .next t) (hm : s.mem.wf) : t.mem.wf := by
  obtain he | ⟨a, bs, hfit, he⟩ := exec_mem_cases h
  · rwa [he]
  · rw [he]
    exact Memory.wf_writeBytes hm hfit

/-! ## The invariant along a step -/

theorem tick_stepCount_of_lt {s : State} (h : s.stepCount < s.config.timerPeriod) :
    (tick s).stepCount = (s.stepCount + 1) % s.config.timerPeriod := by
  rw [tick_stepCount]
  split
  case isTrue hlast => rw [hlast, Nat.mod_self]
  case isFalse hmore => exact (Nat.mod_eq_of_lt (by omega)).symm

theorem tick_stepCount_lt {s : State} (h : s.stepCount < s.config.timerPeriod) :
    (tick s).stepCount < s.config.timerPeriod := by
  rw [tick_stepCount_of_lt h]
  exact Nat.mod_lt _ (Nat.zero_lt_of_lt h)

/-- Where PC can go from an advanced PC that came from inside memory, with return addresses as `Inv` bounds them
(R26): only JP V0 can leave the 12-bit range. -/
theorem PcRule.toNat_le {i : Instr} {s : State} {pc : Word} (h : PcRule i s pc) (hlow : 2 ≤ s.pc.toNat)
    (hhigh : s.pc.toNat ≤ 0x1000) (hreturns : ∀ a ∈ s.stack, a.toNat ≤ 0x1000) : pc.toNat ≤ 0x10FE := by
  have hskip : (s.pc + 2).toNat ≤ 0x10FE := by bv_omega
  have hback : (s.pc - 2).toNat ≤ 0x10FE := by bv_omega
  have hstay : s.pc.toNat ≤ 0x10FE := by omega
  cases i with
  | ret => exact (hreturns pc (List.mem_of_head? h)).trans (by decide)
  | jp nnn | call nnn =>
    have hpc : pc.toNat = nnn.toNat := h
    omega
  | jpV0 nnn =>
    have hpc : pc.toNat = nnn.toNat + (s.jumpOffset nnn).toNat := h
    omega
  | seImm x nn | sneImm x nn => rw [h]; split <;> assumption
  | seReg x y | sneReg x y => rw [h]; split <;> assumption
  | skp x | sknp x => rw [h]; split <;> assumption
  | ldVxK x => rw [h]; split <;> assumption
  | _ => rwa [h]

/-- Settles O58: the fetch bounds the advanced PC, and from there each element goes where its rule takes it. -/
theorem stepKeepsInvariant : Obligations.StepKeepsInvariant := by
  intro s t hinv h
  obtain ⟨hrunning, i, u, hd, he, -, rfl⟩ := step_next h
  obtain ⟨w, hfetch, -⟩ := fetchDecode_ok hd
  obtain ⟨hpc, -⟩ := fetch_ok hfetch
  have hadvanced : (advance s).pc.toNat = s.pc.toNat + 2 := by
    rw [advance_pc]
    bv_omega
  have hframe := exec_keepsRest he
  have hconfig : u.config = s.config := hframe.config
  have hcount : u.stepCount < u.config.timerPeriod := by
    rw [hframe.stepCount, hframe.config]
    exact hinv.stepCount
  have hmem : u.mem.wf := exec_keeps_wf he hinv.mem
  refine ⟨hconfig ▸ hinv.config, hmem, tick_stepCount_lt hcount, ?limit, ?pc, ?returns,
    hframe.faulted.trans hrunning⟩
  case limit =>
    intro d hd
    have hlen := hinv.stackLimit d (hconfig ▸ hd)
    simp only [tick_stack, handFrame_stack]
    obtain hs | hs | ⟨hs, hroom⟩ := exec_stack_cases he
    · rwa [hs]
    · rw [hs, List.length_tail]
      exact (Nat.sub_le _ _).trans hlen
    · have hne : d ≠ s.stack.length := fun e => hroom (e ▸ hconfig ▸ hd)
      rw [hs, List.length_cons, advance_stack]
      omega
  case pc =>
    exact (pcChangesOnlyAsListed i _ u he).toNat_le (by omega) (by omega) hinv.returns
  case returns =>
    intro a ha
    simp only [tick_stack, handFrame_stack] at ha
    obtain hs | hs | ⟨hs, -⟩ := exec_stack_cases he
    · exact hinv.returns a (hs ▸ ha)
    · exact hinv.returns a (List.mem_of_mem_tail (hs ▸ ha))
    · rw [hs] at ha
      rcases List.mem_cons.1 ha with rfl | ha
      · omega
      · exact hinv.returns a ha

end Sys2Proof.Machine
end

section
namespace Sys2Proof.Machine

/-! ## Host loads -/

theorem Memory.read_writeBytes_at (m : Memory) (a : Nat) (bs : List Byte) {k : Nat} (h : k < bs.length) :
    (m.writeBytes a bs).read (a + k) = bs[k] := by
  rw [Memory.read_writeBytes, dif_pos ⟨Nat.le_add_right a k, Nat.add_lt_add_left h a⟩]
  simp only [Nat.add_sub_cancel_left]

theorem load_fits (s : State) {offset : Nat} {data : List Byte} (rom : Bool) (h : offset + data.length ≤ 4096) :
    s.load offset data rom =
      .ok { s with mem := s.mem.writeBytes offset data, pc := if rom then BitVec.ofNat 16 offset else s.pc } :=
  if_neg (not_lt.2 h)

theorem load_beyond (s : State) {offset : Nat} {data : List Byte} (rom : Bool) (h : offset + data.length > 4096) :
    s.load offset data rom = .error (.outOfBounds offset) :=
  if_pos h

theorem load_ok {s t : State} {offset : Nat} {data : List Byte} {rom : Bool} (h : s.load offset data rom = .ok t) :
    offset + data.length ≤ 4096 ∧
      t = { s with mem := s.mem.writeBytes offset data, pc := if rom then BitVec.ofNat 16 offset else s.pc } := by
  by_cases hfit : offset + data.length ≤ 4096
  · rw [load_fits s rom hfit] at h
    exact ⟨hfit, (Except.ok.inj h).symm⟩
  · rw [load_beyond s rom (not_le.1 hfit)] at h
    cases h

/-- An offset a load accepts is the number of the PC it sets. -/
theorem toNat_loadPc {offset len : Nat} (h : offset + len ≤ 4096) : (BitVec.ofNat 16 offset).toNat = offset := by
  rw [BitVec.toNat_ofNat]
  omega

/-- Settles O14: the check comes first, and then the copied bytes and a ROM's PC are all that is replaced. -/
theorem hostLoadIsAllOrNothing : Obligations.HostLoadIsAllOrNothing := by
  intro s offset data rom
  refine ⟨load_beyond s rom, fun hfit => ⟨_, load_fits s rom hfit, ?_, ?_, ?_⟩⟩
  · intro k hk
    exact Memory.read_writeBytes_at s.mem offset data hk
  · rintro rfl
    exact toNat_loadPc hfit
  · exact { KeepsRest.refl _ s with
      mem := (keepsRest_writeBytes s offset data).mem
      pc := fun hrom => if_neg (ne_true_of_eq_false hrom) }

theorem boot_fits {c : Config} {font rom : List Byte} (hfont : c.fontBase.toNat + font.length ≤ 4096)
    (hrom : 0x200 + rom.length ≤ 4096) :
    boot c font rom =
      .ok { State.construct c with mem := (Memory.writeBytes [] c.fontBase.toNat font).writeBytes 0x200 rom } := by
  simp only [boot, load_fits _ false hfont, load_fits _ true hrom]
  rfl

/-- Settles O15: both loads fit, and the ROM's bytes are copied onto the memory that holds the font's. -/
theorem bootPlacesFontAndRom : Obligations.BootPlacesFontAndRom := by
  intro c font rom hc hfont hrom
  have hfontFits : c.fontBase.toNat + font.length ≤ 4096 := hfont ▸ (c.wellFormed_iff.1 hc).1
  refine ⟨_, boot_fits hfontFits (by omega), rfl, rfl, fun k hk => Memory.read_writeBytes_at _ 0x200 rom hk, ?_⟩
  intro k hk hout
  rw [Memory.read_writeBytes, dif_neg hout, Memory.read_writeBytes_at _ _ _ hk]

/-! ## Construction and the reachable states -/

/-- Settles O12: the fields of the constructed state. -/
theorem resetValues : Obligations.ResetValues := by
  refine ⟨fun c => ?_, rfl, rfl⟩
  refine ⟨rfl, rfl, rfl, rfl, fun _ => rfl, FrameBuffer.get_blank, rfl, rfl, rfl, fun hzero => ?_⟩
  simp only [State.construct, hzero]
  exact ⟨fun r => by simp [State.getV], trivial⟩

theorem standard_wellFormed : Config.standard.wellFormed = true := by
  refine (Config.wellFormed_iff _).2 ⟨?_, le_max_left _ _, nofun⟩
  have := Config.hostFontBase.isLt
  rw [Config.standard, BitVec.toNat_ofNat]
  omega

theorem construct_inv {c : Config} (hc : c.wellFormed = true) : Inv (State.construct c) where
  config := hc
  mem := Memory.wf_nil
  stepCount := (c.wellFormed_iff.1 hc).2.1
  stackLimit d _ := Nat.zero_le d
  pc := show (0x200 : Word).toNat ≤ 0x10FE by decide
  returns _ ha := nomatch ha
  running := rfl

/-- Settles O13: a constructed state holds the reset values, and reset is such a construction. -/
theorem constructionMeetsInvariant : Obligations.ConstructionMeetsInvariant :=
  ⟨fun _ hc => construct_inv hc, construct_inv standard_wellFormed⟩

theorem load_keeps_inv {s t : State} {offset : Nat} {data : List Byte} {rom : Bool} (hinv : Inv s)
    (h : s.load offset data rom = .ok t) : Inv t := by
  obtain ⟨hfit, rfl⟩ := load_ok h
  refine { hinv with mem := Memory.wf_writeBytes hinv.mem hfit, pc := ?_ }
  cases rom with
  | true =>
    have hpc := toNat_loadPc hfit
    simp only [if_true, hpc]
    omega
  | false => exact hinv.pc

/-- Settles O59: construction meets the invariant, and steps, loads and host inputs keep it. -/
theorem reachableStatesMeetInvariant : Obligations.ReachableStatesMeetInvariant := by
  intro c s hc hs
  induction hs with
  | construct => exact construct_inv hc
  | step _ h ih => exact stepKeepsInvariant _ _ ih h
  | load _ h ih => exact load_keeps_inv ih h
  | key k _ ih => exact { ih with }
  | rnd r _ ih => exact { ih with }
  | renderAnswer a _ ih => exact { ih with }

end Sys2Proof.Machine
end

section
namespace Sys2Proof.Machine

/-! ## One step, phase by phase -/

/-- A fetch outside memory faults with the first address that is outside (R121). -/
theorem fetchDecode_pc_beyond {s : State} (h : 4096 ≤ s.pc.toNat) :
    fetchDecode s = .error (.outOfBounds s.pc.toNat) := by
  simp only [fetchDecode, fetch, memRead_ge s h]

theorem fetchDecode_pc_last {s : State} (h : s.pc.toNat = 4095) : fetchDecode s = .error (.outOfBounds 4096) := by
  simp only [fetchDecode, fetch, h, memRead_lt s (show 4095 < 4096 by decide), memRead_ge s (Nat.le_refl 4096)]

theorem fetchDecode_unknown {s : State} {e : DecodeError} (hpc : s.pc.toNat ≤ 4094)
    (hw : decodeWord (joinBytes (s.mem.read s.pc.toNat) (s.mem.read (s.pc.toNat + 1))) = .error e) :
    fetchDecode s =
      .error (.unknownInstruction (joinBytes (s.mem.read s.pc.toNat) (s.mem.read (s.pc.toNat + 1)))) := by
  simp only [fetchDecode, fetch_in_memory hpc, hw]

/-- Settles O17: the fetch faults before anything is decoded. -/
theorem fetchOutsideMemoryFaults : Obligations.FetchOutsideMemoryFaults := fun _ hf =>
  ⟨fun h => step_fetchDecode_error hf (fetchDecode_pc_beyond h),
    fun h => step_fetchDecode_error hf (fetchDecode_pc_last h)⟩

/-- Settles O18: the dispatch faults with the fetched word. -/
theorem unknownWordFaults : Obligations.UnknownWordFaults := fun _ _ hf hpc hw =>
  step_fetchDecode_error hf (fetchDecode_unknown hpc hw)

/-- Settles O16: the decoded instruction runs on the advanced state, and only a completed body is handed off. -/
theorem stepRunsDecodedInstruction : Obligations.StepRunsDecodedInstruction := by
  intro s i hf hpc hw
  have hstep : step s = finishStep (exec i { s with pc := s.pc + 2 }) :=
    step_fetchDecode_ok hf (fetchDecode_in_memory hpc hw)
  refine ⟨fun t he hr => ?_, fun t e he hr => ?_, fun f he => ?_⟩
  · rw [hstep, he]
    exact handOff_ok hr
  · rw [hstep, he]
    exact handOff_error hr
  · rw [hstep, he]
    rfl

/-- Settles O55: the frame of every body holds the host's fields, and the hand-off replaces the frame port alone. -/
theorem stepKeepsWhatTheHostOwns : Obligations.StepKeepsWhatTheHostOwns := by
  intro s t h
  obtain ⟨hf, i, u, -, he, -, rfl⟩ := step_next h
  have hframe := exec_keepsRest he
  exact ⟨hframe.key, hframe.config, hframe.renderAnswer, hf, hframe.faulted.trans hf, rfl⟩

/-! ## Where a faulting step ends -/

theorem faultEnd_cases (s : State) :
    faultEnd s = s ∨ ∃ i t, exec i (advance s) = .next t ∧ faultEnd s = handFrame t := by
  cases hd : fetchDecode s with
  | error f => exact .inl (by simp only [faultEnd, hd])
  | ok i =>
    cases he : exec i (advance s) with
    | next t => exact .inr ⟨i, t, he, faultEnd_body hd he⟩
    | fault f => exact .inl (by simp only [faultEnd, hd, he])
    | refused r => exact .inl (by simp only [faultEnd, hd, he])

/-- A faulting step is not counted and leaves the host's inputs and the configuration (R112, R126). -/
theorem faultEnd_keeps (s : State) :
    (faultEnd s).stepCount = s.stepCount ∧ (faultEnd s).key = s.key ∧ (faultEnd s).config = s.config ∧
      (faultEnd s).renderAnswer = s.renderAnswer := by
  obtain h | ⟨i, t, he, h⟩ := faultEnd_cases s
  · rw [h]
    exact ⟨rfl, rfl, rfl, rfl⟩
  · have hframe := exec_keepsRest he
    rw [h]
    exact ⟨hframe.stepCount, hframe.key, hframe.config, hframe.renderAnswer⟩

/-- Settles O19: by the answer of `step`, what the port leaves open being the elements of R308 alone. -/
theorem faultLatchesAndStopsTheCore : Obligations.FaultLatchesAndStopsTheCore := by
  refine ⟨fun s t h r s' => ?completes, fun s f h => ⟨stepPort_fault_exists h, fun r s' hp => ?faults⟩,
    fun s i t e hf hpc hw he hr r s' hp => ?renders, fun s hf => ⟨step_faulted hf, fun r s' hp => ?latched⟩⟩
  case completes =>
    rw [stepPort, h]
  case faults =>
    obtain ⟨hreply, hfaulted, -, hcount, hkey, -, -, hanswer, hframe, hconfig⟩ := stepPort_fault h hp
    obtain ⟨hcount', hkey', hconfig', hanswer'⟩ := faultEnd_keeps s
    exact ⟨hreply, hfaulted, step_faulted hfaulted, hcount.trans hcount', hkey.trans hkey', hconfig.trans hconfig',
      hanswer.trans hanswer', fun hbody => hframe.trans (congrArg State.frame (faultEnd_of_not_render h hbody))⟩
  case renders =>
    have hd := fetchDecode_in_memory hpc hw
    have hstep : step s = .fault (.renderError e) :=
      (stepRunsDecodedInstruction s i hf hpc hw).2.1 t e he hr
    obtain ⟨hreply, -, -, -, -, -, -, -, hframe, -⟩ := stepPort_fault hstep hp
    exact ⟨hreply, hframe.trans (congrArg State.frame (faultEnd_body hd he))⟩
  case latched =>
    rw [stepPort, step_faulted hf] at hp
    exact hp

/-! ## Runs -/

theorem run_succ {s u : State} (h : step s = .next u) (k : Nat) : core.run (k + 1) s = core.run k u := by
  have h' : core.step s = .next u := h
  simp only [Host.Core.run, h']

theorem run_succ_next {s t : State} {k : Nat} (h : core.run (k + 1) s = .next t) :
    ∃ u, step s = .next u ∧ core.run k u = .next t := by
  cases hs : step s with
  | next u => exact ⟨u, rfl, (run_succ hs k).symm.trans h⟩
  | fault f =>
    have hs' : core.step s = .fault f := hs
    simp [Host.Core.run, hs'] at h
  | refused r =>
    have hs' : core.step s = .refused r := hs
    simp [Host.Core.run, hs'] at h

theorem JumpsToSelf.step_eq {s : State} {nnn : Addr} (h : JumpsToSelf s nnn) (hf : s.faulted = false)
    (hpc : s.pc.toNat ≤ 4094) (hr : s.renderAnswer = .ok) : step s = .next (tick (handFrame s)) := by
  rw [step_jp hf (fetchDecode_in_memory hpc (h.word ▸ decodeWord_jp nnn)), h.zextAddr_eq]
  exact handOff_ok hr

/-- Settles O60: each step hands the frame over and ticks, which leaves the same self jump at PC. -/
theorem jumpToItselfLoops : Obligations.JumpToItselfLoops := by
  intro nnn s hf hr htarget hpc hword k
  induction k generalizing s with
  | zero => exact ⟨s, rfl, rfl, rfl, rfl, rfl, hf⟩
  | succ k ih =>
    have hself : JumpsToSelf s nnn := ⟨htarget, hword⟩
    rw [run_succ (hself.step_eq hf hpc hr)]
    exact ih (tick (handFrame s)) hf hr htarget hpc hword

/-! ## The timer cadence -/

theorem step_stepCount {s t : State} (hlt : s.stepCount < s.config.timerPeriod) (h : step s = .next t) :
    t.stepCount = (s.stepCount + 1) % s.config.timerPeriod := by
  obtain ⟨-, i, u, -, he, -, rfl⟩ := step_next h
  have hframe := exec_keepsRest he
  have hcount : u.stepCount = s.stepCount := hframe.stepCount
  have hconfig : u.config = s.config := hframe.config
  rw [tick_stepCount_of_lt (by simpa [hcount, hconfig] using hlt), handFrame_stepCount, handFrame_config, hcount,
    hconfig]

theorem run_stepCount {s t : State} {k : Nat} (hlt : s.stepCount < s.config.timerPeriod)
    (h : core.run k s = .next t) : t.stepCount = (s.stepCount + k) % s.config.timerPeriod := by
  induction k generalizing s with
  | zero =>
    obtain rfl : s = t := Host.Outcome.next.inj h
    exact (Nat.mod_eq_of_lt hlt).symm
  | succ k ih =>
    obtain ⟨u, hu, hrun⟩ := run_succ_next h
    have hcount := step_stepCount hlt hu
    have hconfig : u.config = s.config := (stepKeepsWhatTheHostOwns s u hu).2.1
    have hlt' : u.stepCount < u.config.timerPeriod := by
      rw [hcount, hconfig]
      exact Nat.mod_lt _ (by omega)
    rw [ih hlt' hrun, hcount, hconfig, Nat.mod_add_mod, Nat.add_assoc, Nat.add_comm 1 k]

/-- Before the period is over a tick only counts. -/
theorem tick_iterate {s : State} (h0 : s.stepCount = 0) {k : Nat} (hk : k < s.config.timerPeriod) :
    tick^[k] s = { s with stepCount := k } := by
  induction k with
  | zero => exact congrArg (fun n => ({ s with stepCount := n } : State)) h0
  | succ k ih =>
    have hmore : k + 1 ≠ s.config.timerPeriod := hk.ne
    rw [Function.iterate_succ_apply', ih (by omega)]
    simp only [tick, if_neg hmore]

/-- Settles O11: the last tick of a period starts from StepCount = TIMER_PERIOD - 1 with the timers untouched. -/
theorem timersTickOncePerPeriod : Obligations.TimersTickOncePerPeriod := by
  refine ⟨fun s hperiod h0 => ⟨fun k hk => ?_, ?_⟩, fun s t k hlt h => run_stepCount hlt h⟩
  · rw [tick_iterate h0 hk]
    exact ⟨rfl, rfl, rfl⟩
  · obtain ⟨p, hp⟩ := Nat.exists_eq_add_of_le' hperiod
    rw [hp, Function.iterate_succ_apply', tick_iterate h0 (by omega)]
    simp only [tick_dt, tick_st, tick_stepCount, ← hp, if_true, and_self]

end Sys2Proof.Machine
end

section
namespace Sys2Proof.Machine

/-! ## What no instruction reads: StepCount and ST -/

/-- `s` with another StepCount and another ST. -/
def State.withHidden (s : State) (n : Nat) (v : Byte) : State := { s with stepCount := n, st := v }

theorem loadedRegs_withHidden (s : State) (n : Nat) (v : Byte) (x : Reg) :
    (s.withHidden n v).loadedRegs x = s.loadedRegs x := by
  unfold State.loadedRegs
  rfl

theorem faultRule_withHidden (i : Instr) (s : State) (n : Nat) (v : Byte) (f : Fault) :
    FaultRule i (s.withHidden n v) f ↔ FaultRule i s f := by
  cases i <;> exact Iff.rfl

/-- The body carries a hidden StepCount along and a hidden ST too, unless it loads ST. -/
theorem bodyEnd_withHidden (i : Instr) (s : State) (n : Nat) (v : Byte) :
    ∃ u, bodyEnd i (s.withHidden n v) = (bodyEnd i s).withHidden n u := by
  cases i with
  | ldStVx x => exact ⟨s.getV x, rfl⟩
  | ldVxK x =>
    refine ⟨v, ?_⟩
    simp only [bodyEnd, State.withHidden]
    cases lowestPressed s.key <;> rfl
  | storeRegs x =>
    refine ⟨v, ?_⟩
    simp only [bodyEnd, regsFrom_congr (s := s) (t := s.withHidden n v) rfl]
    rfl
  | loadRegs x =>
    refine ⟨v, ?_⟩
    simp only [bodyEnd, loadedRegs_withHidden]
    rfl
  | _ => exact ⟨v, rfl⟩

theorem exec_withHidden_next {i : Instr} {s t : State} (h : exec i s = .next t) (n : Nat) (v : Byte) :
    ∃ u, exec i (s.withHidden n v) = .next (t.withHidden n u) := by
  obtain ⟨hnone, rfl⟩ := exec_next h
  obtain ⟨u, hu⟩ := bodyEnd_withHidden i s n v
  refine ⟨u, ?_⟩
  rw [exec_of_not_faultRule fun f hf => hnone f ((faultRule_withHidden i s n v f).1 hf), hu]

theorem exec_withHidden_fault {i : Instr} {s : State} {f : Fault} (h : exec i s = .fault f) (n : Nat) (v : Byte) :
    exec i (s.withHidden n v) = .fault f :=
  exec_of_faultRule ((faultRule_withHidden i s n v f).2 ((faultsOnlyWhereTheRulesSay i s).1 f h))

/-- Everything a step that faults can have done (R120, R309). -/
theorem step_fault {s : State} {f : Fault} (h : step s = .fault f) :
    s.faulted = false ∧
      (fetchDecode s = .error f ∨
        ∃ i, fetchDecode s = .ok i ∧
          (exec i (advance s) = .fault f ∨
            ∃ u e, exec i (advance s) = .next u ∧ u.renderAnswer = .error e ∧ f = .renderError e)) := by
  cases hf : s.faulted with
  | true => cases (step_faulted hf).symm.trans h
  | false =>
    refine ⟨rfl, ?_⟩
    cases hd : fetchDecode s with
    | error g => exact .inl (congrArg _ (Host.Outcome.fault.inj ((step_fetchDecode_error hf hd).symm.trans h)))
    | ok i =>
      refine .inr ⟨i, rfl, ?_⟩
      rw [step_fetchDecode_ok hf hd] at h
      cases he : exec i (advance s) with
      | fault g =>
        rw [he] at h
        exact .inl h
      | refused r => exact absurd he ((faultsOnlyWhereTheRulesSay i _).2 r)
      | next u =>
        rw [he] at h
        cases hr : u.renderAnswer with
        | ok => cases (handOff_ok hr).symm.trans h
        | error e => exact .inr ⟨u, e, rfl, hr, (Host.Outcome.fault.inj ((handOff_error hr).symm.trans h)).symm⟩

/-- Both steps run the same body; they part only in what the cadence counts and decrements. -/
theorem step_withHidden_next {s t : State} (h : step s = .next t) (n : Nat) (v : Byte) :
    ∃ w u, w.stepCount = s.stepCount ∧ t = tick (handFrame w) ∧
      step (s.withHidden n v) = .next (tick (handFrame (w.withHidden n u))) := by
  obtain ⟨hf, i, w, hd, he, hr, rfl⟩ := step_next h
  obtain ⟨u, hu⟩ := exec_withHidden_next he n v
  have hcount : w.stepCount = s.stepCount := (exec_keepsRest he).stepCount
  refine ⟨w, u, hcount, rfl, ?_⟩
  have hstep : step (s.withHidden n v) = finishStep (exec i ((advance s).withHidden n v)) :=
    step_fetchDecode_ok hf hd
  rw [hstep, hu]
  exact handOff_ok hr

theorem step_withHidden_fault {s : State} {f : Fault} (h : step s = .fault f) (n : Nat) (v : Byte) :
    step (s.withHidden n v) = .fault f := by
  obtain ⟨hf, hd | ⟨i, hd, hbody⟩⟩ := step_fault h
  · exact step_fetchDecode_error hf hd
  · have hstep : step (s.withHidden n v) = finishStep (exec i ((advance s).withHidden n v)) :=
      step_fetchDecode_ok hf hd
    rw [hstep]
    obtain he | ⟨w, e, he, hr, rfl⟩ := hbody
    · rw [exec_withHidden_fault he]
      rfl
    · obtain ⟨u, hu⟩ := exec_withHidden_next he n v
      rw [hu]
      exact handOff_error hr

/-- Settles O56: with StepCount unchanged, the two steps have the same cadence. -/
theorem soundTimerIsReadByNoInstruction : Obligations.SoundTimerIsReadByNoInstruction := by
  intro s v
  refine ⟨fun t h => ?_, fun f h => step_withHidden_fault h s.stepCount v⟩
  obtain ⟨w, u, hcount, rfl, hstep⟩ := step_withHidden_next h s.stepCount v
  have hw : w.withHidden s.stepCount u = { w with st := u } := hcount ▸ rfl
  rw [hw] at hstep
  exact ⟨_, hstep⟩

/-- Settles O57: with ST unchanged, the two steps part in StepCount and in what the cadence makes of the timers. -/
theorem stepCountIsHidden : Obligations.StepCountIsHidden := by
  intro s n
  refine ⟨fun t h => ?_, fun f h => step_withHidden_fault h n s.st⟩
  obtain ⟨w, u, -, rfl, hstep⟩ := step_withHidden_next h n s.st
  exact ⟨_, _, _, hstep⟩

end Sys2Proof.Machine
end

section
namespace Sys2Proof.Machine

/-! ## The register file's checked port -/

theorem regGet_ge (s : State) {k : Nat} (h : 16 ≤ k) : s.regGet k = .error (.outOfBounds k) :=
  dif_neg (not_lt.2 h)

theorem regSet_ge (s : State) {k : Nat} (b : Byte) (h : 16 ≤ k) : s.regSet k b = .error (.outOfBounds k) :=
  dif_neg (not_lt.2 h)

/-- A register write is invisible to a checked read of any other index, in range or out of it. -/
theorem regGet_setV_ne (s : State) {k q : Nat} (hk : k < 16) (b : Byte) (hq : q ≠ k) :
    (s.setV ⟨k, hk⟩ b).regGet q = s.regGet q := by
  by_cases hlt : q < 16
  · rw [regGet_lt _ hlt, regGet_lt s hlt, getV_setV_ne s b fun he => hq (congrArg Fin.val he)]
  · rw [regGet_ge _ (not_lt.1 hlt), regGet_ge s (not_lt.1 hlt)]

/-- Settles O9: below 16 the port is the register file, from 16 on both accesses fault. -/
theorem registerFilePort : Obligations.RegisterFilePort := by
  intro s k b
  refine ⟨fun hge => ⟨regGet_ge s hge, regSet_ge s b hge⟩, fun hlt => ⟨_, regSet_lt s b hlt, ?_, ?_⟩⟩
  · rw [regGet_lt _ hlt, getV_setV_same]
  · exact fun q hq => regGet_setV_ne s hlt b hq

/-! ## Results and flags as numbers -/

theorem getV_setResultFlag_vf (s : State) (x : Reg) (b : Byte) (f : Bool) :
    (s.setResultFlag x b f).getV Reg.vf = flagByte f := by
  rw [getV_setResultFlag, if_pos rfl]

theorem getV_setResultFlag_dest (s : State) {x : Reg} (b : Byte) (f : Bool) (hx : x ≠ Reg.vf) :
    (s.setResultFlag x b f).getV x = b := by
  rw [getV_setResultFlag, if_neg hx, if_pos rfl]

theorem flagByte_decide (p : Prop) [Decidable p] : flagByte (decide p) = if p then 1 else 0 := by
  by_cases hp : p <;> simp [flagByte, hp]

/-- A bit taken as a flag is the digit of that weight. -/
theorem toNat_flagByte_getLsbD (b : Byte) (k : Nat) : (flagByte (b.getLsbD k)).toNat = b.toNat / 2 ^ k % 2 := by
  rw [BitVec.getLsbD, Nat.testBit_eq_decide_div_mod_eq, flagByte_decide]
  split
  case isTrue hbit => exact hbit.symm
  case isFalse hbit => exact (Nat.mod_two_ne_one.1 hbit).symm

theorem toNat_flagByte_shiftedOutLow (b : Byte) : (flagByte (shiftedOutLow b)).toNat = b.toNat % 2 := by
  rw [shiftedOutLow, toNat_flagByte_getLsbD, pow_zero, Nat.div_one]

theorem toNat_flagByte_shiftedOutHigh (b : Byte) : (flagByte (shiftedOutHigh b)).toNat = b.toNat / 128 := by
  have := b.isLt
  rw [shiftedOutHigh, toNat_flagByte_getLsbD]
  omega

/-- The difference of two bytes as R194 takes it: the exact result modulo 256. -/
theorem toNat_sub_byte (a b : Byte) : (a - b).toNat = (a.toNat + 256 - b.toNat) % 256 := by
  bv_omega

theorem toNat_shiftRight_one (b : Byte) : (b >>> 1).toNat = b.toNat / 2 := by
  rw [BitVec.toNat_ushiftRight, Nat.shiftRight_eq_div_pow, pow_one]

theorem toNat_shiftLeft_one (b : Byte) : (b <<< 1).toNat = b.toNat * 2 % 256 := by
  rw [BitVec.toNat_shiftLeft, Nat.shiftLeft_eq, pow_one]

theorem shiftSource_eq {s : State} {x y : Reg} {src : Byte}
    (h : (s.config.shiftSrc = .vy ∧ src = s.getV y) ∨ (s.config.shiftSrc = .vx ∧ src = s.getV x)) :
    s.shiftSource x y = src := by
  obtain ⟨hc, rfl⟩ | ⟨hc, rfl⟩ := h <;> simp only [State.shiftSource, hc]

/-! ## Register and ALU instructions -/

/-- Settles O21: the body writes V[y] to V[x]. -/
theorem loadRegisterCopies : Obligations.LoadRegisterCopies := fun x y s =>
  ⟨decodeWord_encode (.ldReg x y), _, rfl, getV_setV_same s x _, keepsRest_setV s x _⟩

/-- Settles O22: the body writes the sum of V[x] and nn to V[x]. -/
theorem addImmediateWrapsWithoutFlag : Obligations.AddImmediateWrapsWithoutFlag := fun x nn s =>
  ⟨decodeWord_encode (.addImm x nn), _, rfl, by rw [getV_setV_same, BitVec.toNat_add], keepsRest_setV s x _⟩

/-- Settles O23: each of the three writes its bitwise result to V[x]. -/
theorem logicWritesNoFlag : Obligations.LogicWritesNoFlag := by
  intro x y s
  refine ⟨⟨_, rfl, fun k => ?_, keepsRest_setV s x _⟩, ⟨_, rfl, fun k => ?_, keepsRest_setV s x _⟩,
    ⟨_, rfl, fun k => ?_, keepsRest_setV s x _⟩⟩
  · rw [getV_setV_same, BitVec.getLsbD_or]
  · rw [getV_setV_same, BitVec.getLsbD_and]
  · rw [getV_setV_same, BitVec.getLsbD_xor]

/-- Settles O24: result and carry of the addition, the flag last. -/
theorem addSetsCarry : Obligations.AddSetsCarry := by
  intro x y s
  refine ⟨decodeWord_encode (.addReg x y), _, rfl, fun hx => ?_, ?_, keepsRest_setResultFlag s x _ _⟩
  · rw [getV_setResultFlag_dest s _ _ hx, BitVec.toNat_add]
  · rw [getV_setResultFlag_vf, carry, flagByte_decide]

/-- Settles O25: result and no-borrow of the subtraction either way round, the flag last. -/
theorem subtractionsSetNoBorrow : Obligations.SubtractionsSetNoBorrow := by
  intro x y s
  refine ⟨⟨_, rfl, fun hx => ?_, ?_, keepsRest_setResultFlag s x _ _⟩,
    ⟨_, rfl, fun hx => ?_, ?_, keepsRest_setResultFlag s x _ _⟩⟩
  · rw [getV_setResultFlag_dest s _ _ hx, toNat_sub_byte]
  · rw [getV_setResultFlag_vf, noBorrow, flagByte_decide]
  · rw [getV_setResultFlag_dest s _ _ hx, toNat_sub_byte]
  · rw [getV_setResultFlag_vf, noBorrow, flagByte_decide]

/-- Settles O26: the configured source shifted by one, and its end bit as the flag. -/
theorem shiftsMoveOneBit : Obligations.ShiftsMoveOneBit := by
  intro x y s src hsrc
  obtain rfl := shiftSource_eq hsrc
  refine ⟨⟨_, rfl, fun hx => ?_, ?_, keepsRest_setResultFlag s x _ _⟩,
    ⟨_, rfl, fun hx => ?_, ?_, keepsRest_setResultFlag s x _ _⟩⟩
  · rw [getV_setResultFlag_dest s _ _ hx, toNat_shiftRight_one]
  · rw [getV_setResultFlag_vf, toNat_flagByte_shiftedOutLow]
  · rw [getV_setResultFlag_dest s _ _ hx, toNat_shiftLeft_one]
  · rw [getV_setResultFlag_vf, toNat_flagByte_shiftedOutHigh]

/-- Settles O28: the body takes the offered byte, masked as RND_AND_NN says, and moves the port on. -/
theorem randomWritesTheDraw : Obligations.RandomWritesTheDraw := by
  intro x nn s
  refine ⟨_, rfl, fun hmask => ?_, fun hmask => ?_, rfl, keepsRest_consumeDraw_setV s x _⟩
  · rw [getV_setV_same, hmask, if_neg Bool.false_ne_true]
  · rw [getV_setV_same, hmask, if_pos rfl]

end Sys2Proof.Machine
end

section
namespace Sys2Proof.Machine

/-! ## Drawing -/

/-- Whether the sprite of DRW Vx, Vy, n covers a cell with a set bit (R141, R142). -/
def State.spriteAt (s : State) (x y : Reg) (n : Nibble) (q : Fin 64) (r : Fin 32) : Bool :=
  spriteCovers ((s.getV x).toNat % 64) ((s.getV y).toNat % 32) (s.mem.block s.i.toNat n.toNat) q.val r.val

theorem drawn_get (s : State) (x y : Reg) (n : Nibble) (q : Fin 64) (r : Fin 32) :
    (s.drawn x y n).1.get q r = (s.fb.get q r ^^ s.spriteAt x y n q r) :=
  drawSprite_get (s.fb, false) _ _ _ q r

theorem drawn_collision_iff (s : State) (x y : Reg) (n : Nibble) :
    (s.drawn x y n).2 = true ↔ ∃ q r, s.spriteAt x y n q r = true ∧ s.fb.get q r = true :=
  (drawSprite_collision (s.fb, false) _ _ _).trans (or_iff_right Bool.false_ne_true)

/-- A DRW whose sprite lies in memory completes (R141). -/
theorem exec_drw (x y : Reg) {n : Nibble} {s : State} (h : s.i.toNat + n.toNat ≤ 4096) :
    exec (.drw x y n) s = .next (bodyEnd (.drw x y n) s) :=
  exec_of_not_faultRule fun _ hf => absurd hf.1 (not_lt.2 h)

theorem bodyEnd_drw_get (s : State) (x y : Reg) (n : Nibble) (q : Fin 64) (r : Fin 32) :
    (bodyEnd (.drw x y n) s).fb.get q r = (s.fb.get q r ^^ s.spriteAt x y n q r) :=
  drawn_get s x y n q r

theorem getV_bodyEnd_drw_vf (s : State) (x y : Reg) (n : Nibble) :
    (bodyEnd (.drw x y n) s).getV Reg.vf = flagByte (s.drawn x y n).2 :=
  getV_setFlag_vf _ _

theorem flagByte_eq_one_iff (b : Bool) : flagByte b = 1 ↔ b = true := by
  cases b <;> decide

theorem flagByte_eq_zero_iff (b : Bool) : flagByte b = 0 ↔ b = false := by
  cases b <;> decide

/-- With its origin in registers other than VF a DRW leaves its own sprite in place for the next. -/
theorem spriteAt_bodyEnd_drw (s : State) {x y : Reg} (hx : x ≠ Reg.vf) (hy : y ≠ Reg.vf) (n : Nibble) :
    (bodyEnd (.drw x y n) s).spriteAt x y n = s.spriteAt x y n := by
  have hframe := (bodyEnd_keepsRest (.drw x y n) s).v
  have hvx := hframe x (mt List.mem_singleton.1 hx)
  have hvy := hframe y (mt List.mem_singleton.1 hy)
  funext q r
  rw [State.spriteAt, hvx, hvy]
  rfl

/-- Settles O30: the frame buffer and collision of the whole sprite, cell by cell. -/
theorem drawXorsClippedSprite : Obligations.DrawXorsClippedSprite := by
  intro x y n s hfit
  refine ⟨_, exec_drw x y hfit, bodyEnd_drw_get s x y n, ?_, bodyEnd_keepsRest (.drw x y n) s⟩
  rw [getV_bodyEnd_drw_vf, flagByte_eq_one_iff, flagByte_eq_zero_iff]
  cases hc : (s.drawn x y n).2 with
  | true =>
    obtain ⟨q, r, hcover, hlit⟩ := (drawn_collision_iff s x y n).1 hc
    exact .inl ⟨rfl, q, r, hlit, hcover⟩
  | false =>
    refine .inr ⟨rfl, fun q r hlit => eq_false_of_ne_true fun hcover => ?_⟩
    exact Bool.false_ne_true (hc.symm.trans ((drawn_collision_iff s x y n).2 ⟨q, r, hcover, hlit⟩))

/-- Settles O32: the second draw XORs the same sprite again, which on a blank buffer is what the first lit. -/
theorem drawingTwiceRestores : Obligations.DrawingTwiceRestores := by
  intro x y n s hx hy hfit
  have hsprite := spriteAt_bodyEnd_drw s hx hy n
  refine ⟨_, _, exec_drw x y hfit, exec_drw x y (s := bodyEnd (.drw x y n) s) hfit, fun q r => ?_,
    fun hblank => ⟨?_, ?_⟩⟩
  · rw [bodyEnd_drw_get, bodyEnd_drw_get, hsprite, Bool.xor_assoc, Bool.xor_self, Bool.xor_false]
  · have hnone : (s.drawn x y n).2 = false := eq_false_of_ne_true fun hc => by
      obtain ⟨q, r, -, hlit⟩ := (drawn_collision_iff s x y n).1 hc
      exact Bool.false_ne_true ((hblank q r).symm.trans hlit)
    rw [getV_bodyEnd_drw_vf, hnone]
    rfl
  · have hlit (q : Fin 64) (r : Fin 32) : (bodyEnd (.drw x y n) s).fb.get q r = s.spriteAt x y n q r := by
      rw [bodyEnd_drw_get, hblank, Bool.false_xor]
    rw [getV_bodyEnd_drw_vf, flagByte_eq_one_iff, drawn_collision_iff]
    simp only [hsprite, hlit, and_self]

/-- Drawing a list of sprites inverts a cell once for each sprite that covers it. -/
theorem foldl_drawSprite_get (sprites : List (Nat × Nat × List Byte)) (fb : FrameBuffer) (q : Fin 64) (r : Fin 32) :
    (sprites.foldl (fun fb d => (drawSprite (fb, false) d.1 d.2.1 d.2.2).1) fb).get q r =
      (fb.get q r ^^ decide (sprites.countP (fun d => spriteCovers d.1 d.2.1 d.2.2 q.val r.val) % 2 = 1)) := by
  induction sprites generalizing fb with
  | nil => simp
  | cons d sprites ih =>
    rw [List.foldl_cons, ih, drawSprite_get, List.countP_cons, Bool.xor_assoc]
    congr 1
    cases spriteCovers d.1 d.2.1 d.2.2 q.val r.val with
    | false => simp
    | true =>
      generalize sprites.countP _ = k
      by_cases hk : k % 2 = 1
      · simp [hk, Nat.add_mod]
      · simp [Nat.mod_two_ne_one.1 hk, Nat.add_mod]

/-- Settles O33: from the blank buffer only the parity is left. -/
theorem cellIsParityOfItsPixels : Obligations.CellIsParityOfItsPixels := fun sprites q r => by
  rw [foldl_drawSprite_get, FrameBuffer.get_blank, Bool.false_xor]

/-- Settles O29: the body replaces the frame buffer by the blank one. -/
theorem clearScreenClearsEveryCell : Obligations.ClearScreenClearsEveryCell := fun s =>
  ⟨decodeWord_encode .cls, _, rfl, FrameBuffer.get_blank, keepsRest_setFb s FrameBuffer.blank⟩

/-- Settles O27: `setResultFlag` and DRW end with the write of VF. -/
theorem flagIsWrittenLast : Obligations.FlagIsWrittenLast := by
  intro y s
  refine ⟨⟨_, rfl, ?_⟩, ⟨_, rfl, ?_⟩, ⟨_, rfl, ?_⟩, ⟨_, rfl, ?_⟩, ⟨_, rfl, ?_⟩, fun n hfit =>
    ⟨_, exec_drw _ y hfit, ?_⟩⟩
  · rw [getV_setResultFlag_vf, carry, flagByte_decide]
  · rw [getV_setResultFlag_vf, noBorrow, flagByte_decide]
  · rw [getV_setResultFlag_vf, noBorrow, flagByte_decide]
  · rw [getV_setResultFlag_vf, toNat_flagByte_shiftedOutLow]
  · rw [getV_setResultFlag_vf, toNat_flagByte_shiftedOutHigh]
  · exact getV_bodyEnd_drw_vf s Reg.vf y n

end Sys2Proof.Machine
end

section
namespace Sys2Proof.Machine

/-! ## Control transfer -/

/-- Below the stack limit, or without one, a CALL completes (R28, R162). -/
theorem exec_call (nnn : Addr) {s : State} (h : s.config.stackLimit ≠ some s.stack.length) :
    exec (.call nnn) s = .next { s with stack := s.pc :: s.stack, pc := zextAddr nnn } :=
  exec_of_not_faultRule fun _ hf => h hf.1

theorem exec_ret_cons {s : State} {a : Word} {rest : List Word} (h : s.stack = a :: rest) :
    exec .ret s = .next { s with pc := a, stack := rest } := by
  simp only [exec, execRet, h]

/-- Settles O35: the body pushes the advanced PC; the limit is its only fault. -/
theorem callPushesReturnAddress : Obligations.CallPushesReturnAddress := fun nnn s =>
  ⟨fun hroom => ⟨_, exec_call nnn hroom, toNat_zextAddr nnn, rfl, keepsRest_setPcStack s _ _⟩,
    fun hfull => exec_of_faultRule ⟨hfull, rfl⟩⟩

/-- Settles O36: after a CALL the most recent entry is the PC it pushed. -/
theorem returnPopsIntoPc : Obligations.ReturnPopsIntoPc := by
  refine ⟨decodeWord_encode .ret, fun s a rest hs => ⟨_, exec_ret_cons hs, rfl, rfl, keepsRest_setPcStack s _ _⟩,
    fun s hs => exec_of_faultRule ⟨hs, rfl⟩, fun nnn s t h => ?_⟩
  obtain ⟨-, rfl⟩ := exec_next h
  exact ⟨_, exec_ret_cons rfl, rfl, rfl⟩

/-- Settles O37: the skip's condition and its complement. -/
theorem skipsOnImmediate : Obligations.SkipsOnImmediate := fun x nn s =>
  ⟨decodeWord_encode (.seImm x nn), decodeWord_encode (.sneImm x nn),
    ⟨_, rfl, pcChangesOnlyAsListed (.seImm x nn) s _ rfl, keepsRest_setPc s _⟩,
    ⟨_, rfl, pcChangesOnlyAsListed (.sneImm x nn) s _ rfl, keepsRest_setPc s _⟩⟩

/-- Settles O38: the skip's condition and its complement. -/
theorem skipsOnRegisters : Obligations.SkipsOnRegisters := fun x y s =>
  ⟨⟨_, rfl, pcChangesOnlyAsListed (.seReg x y) s _ rfl, keepsRest_setPc s _⟩,
    ⟨_, rfl, pcChangesOnlyAsListed (.sneReg x y) s _ rfl, keepsRest_setPc s _⟩⟩

/-- The configured offset register, by its number (R168). -/
theorem jumpOffset_eq {s : State} {nnn : Addr} {r : Reg}
    (h : (s.config.jumpOffsetReg = .v0 ∧ r.val = 0) ∨
      (s.config.jumpOffsetReg = .vxOfNnn ∧ r.val = nnn.toNat / 256)) : s.jumpOffset nnn = s.getV r := by
  obtain ⟨hc, hr⟩ | ⟨hc, hr⟩ := h
  · obtain rfl : r = 0 := Fin.ext hr
    simp only [State.jumpOffset, hc]
  · have hreg : regOf (nnn.extractLsb' 8 4) = r := by
      refine Fin.ext ((toNat_field 8 4 nnn).trans ?_)
      have := nnn.isLt
      omega
    simp only [State.jumpOffset, hc, hreg]

/-- Settles O39: the 16-bit sum of the target never wraps. -/
theorem jumpWithOffsetIsExact : Obligations.JumpWithOffsetIsExact := fun nnn s _ hr =>
  ⟨_, rfl, jumpOffset_eq hr ▸ toNat_jumpTarget nnn _, keepsRest_setPc s _⟩

/-! ## Index register and memory -/

theorem toNat_add_zextByte (i : Word) (b : Byte) : (i + zextByte b).toNat = (i.toNat + b.toNat) % 65536 := by
  unfold zextByte
  bv_omega

/-- Settles O41: both sums are taken modulo 2^16, and the font's does not reach it when the font lies in memory. -/
theorem indexArithmetic : Obligations.IndexArithmetic := by
  intro x s
  have hfont := BitVec.toNat_ofNat (s.config.fontBase.toNat + (s.getV x).toNat * 5) 16
  refine ⟨⟨_, rfl, toNat_add_zextByte s.i (s.getV x), keepsRest_setI s _⟩,
    ⟨_, rfl, hfont, fun hfits => hfont.trans (Nat.mod_eq_of_lt ?_), keepsRest_setI s _⟩⟩
  have hbase : s.config.fontBase.toNat + 80 ≤ 4096 := by simpa [Config.fontFits] using hfits
  have := (s.getV x).isLt
  omega

theorem toNat_byte {n : Nat} (h : n < 256) : (BitVec.ofNat 8 n).toNat = n := by
  rw [BitVec.toNat_ofNat, Nat.mod_eq_of_lt h]

/-- Settles O42: the three bytes written are the decimal digits. -/
theorem bcdStoresThreeDigits : Obligations.BcdStoresThreeDigits := by
  intro x s hfit
  have hread (k : Nat) (hk : k < 3) :
      (bodyEnd (.ldB x) s).mem.read (s.i.toNat + k) = (decimalDigits (s.getV x))[k]'hk :=
    Memory.read_writeBytes_at s.mem s.indexAddr (decimalDigits (s.getV x)) hk
  have hbyte := (s.getV x).isLt
  refine ⟨_, exec_of_not_faultRule fun _ hf => absurd hf.1 (not_lt.2 hfit), ?_, ?_, ?_,
    bodyEnd_keepsRest (.ldB x) s⟩
  · exact (congrArg BitVec.toNat (hread 0 (by decide))).trans (toNat_byte (by omega))
  · exact (congrArg BitVec.toNat (hread 1 (by decide))).trans (toNat_byte (by omega))
  · exact (congrArg BitVec.toNat (hread 2 (by decide))).trans (toNat_byte (by omega))

/-- Settles O43: byte k of those written is V[k]. -/
theorem blockStoreWritesRegisters : Obligations.BlockStoreWritesRegisters := by
  intro x s hfit
  refine ⟨_, exec_of_not_faultRule fun _ hf => absurd hf.1 (not_lt.2 hfit), fun r hr => ?_,
    bodyEnd_keepsRest (.storeRegs x) s⟩
  have hlen : r.val < (s.regsFrom 0 (x.val + 1)).length := by
    rw [length_regsFrom]
    exact Nat.lt_succ_of_le hr
  calc (s.mem.writeBytes s.indexAddr (s.regsFrom 0 (x.val + 1))).read (s.indexAddr + r.val)
      = (s.regsFrom 0 (x.val + 1))[r.val] := Memory.read_writeBytes_at _ _ _ hlen
    _ = s.getV ⟨0 + r.val, by omega⟩ := getElem_regsFrom s 0 _ _ hlen _
    _ = s.getV r := congrArg s.getV (Fin.ext (Nat.zero_add r.val))

/-- Settles O44: the loaded register file, register by register. -/
theorem blockLoadReadsRegisters : Obligations.BlockLoadReadsRegisters := by
  intro x s hfit
  refine ⟨_, exec_of_not_faultRule fun _ hf => absurd hf.1 (not_lt.2 hfit), fun r hr => ?_,
    keepsRest_loadedRegs s x⟩
  exact (getV_loadedRegs s x r).trans (if_pos hr)

/-! ## Keys and timers -/

theorem skipIf_not_pc (s : State) (c : Bool) : (s.skipIf (!c)).pc = if c = true then s.pc else s.pc + 2 := by
  cases c <;> rfl

section
variable {x : Reg} {s : State} (h : ¬((s.getV x).toNat ≥ 16 ∧ s.config.keyOob = .fault))
include h

theorem exec_skp : exec (.skp x) s = .next (s.skipIf (s.keyDown (s.getV x))) :=
  exec_of_not_faultRule fun _ ⟨hv, hk, _⟩ => h ⟨hv, hk⟩

theorem exec_sknp : exec (.sknp x) s = .next (s.skipIf (!s.keyDown (s.getV x))) :=
  exec_of_not_faultRule fun _ ⟨hv, hk, _⟩ => h ⟨hv, hk⟩

end

/-- Settles O46: `keyDown` is the key's state below 16 and false above, where KEY_OOB decides only whether to fault. -/
theorem skipsOnKey : Obligations.SkipsOnKey := by
  intro x s
  refine ⟨fun hlt => ?inRange, fun hge hk => ?notPressed,
    fun hge hk => ⟨exec_of_faultRule ⟨hge, hk, rfl⟩, exec_of_faultRule ⟨hge, hk, rfl⟩⟩⟩
  case inRange =>
    have hcompletes : ¬((s.getV x).toNat ≥ 16 ∧ s.config.keyOob = .fault) := fun h => absurd h.1 (not_le.2 hlt)
    rw [exec_skp hcompletes, exec_sknp hcompletes, keyDown_lt s hlt]
    exact ⟨⟨_, rfl, rfl, keepsRest_setPc s _⟩, ⟨_, rfl, skipIf_not_pc s _, keepsRest_setPc s _⟩⟩
  case notPressed =>
    have hcompletes : ¬((s.getV x).toNat ≥ 16 ∧ s.config.keyOob = .fault) := fun h => nomatch hk.symm.trans h.2
    rw [exec_skp hcompletes, exec_sknp hcompletes, keyDown_ge s hge]
    exact ⟨⟨_, rfl, rfl, KeepsRest.refl _ s⟩, ⟨_, rfl, rfl, keepsRest_setPc s _⟩⟩

theorem exec_ldVxK_some (x : Reg) {s : State} {k : Fin 16} (h : lowestPressed s.key = some k) :
    exec (.ldVxK x) s = .next (s.setV x (BitVec.ofNat 8 k.val)) := by
  simp only [exec, execLdVxK, h]

theorem exec_ldVxK_none (x : Reg) {s : State} (h : lowestPressed s.key = none) :
    exec (.ldVxK x) s = .next { s with pc := s.pc - 2 } := by
  simp only [exec, execLdVxK, h]

/-- Settles O47: the search answers the least pressed key or, with none pressed, sends PC back. -/
theorem waitForKeyTakesLowest : Obligations.WaitForKeyTakesLowest := by
  intro x s
  refine ⟨fun k hdown hleast => ?_, fun hup => ?_⟩
  · have hk := (lowestPressed_eq_some_iff s.key k).2 ⟨hdown, hleast⟩
    refine ⟨_, exec_ldVxK_some x hk, ?_, keepsRest_setV s x _⟩
    rw [getV_setV_same, toNat_byte (by omega)]
  · have hnone := (lowestPressed_eq_none_iff s.key).2 hup
    exact ⟨⟨_, exec_ldVxK_none x hnone, rfl, keepsRest_setPc s _⟩,
      ⟨_, exec_ldVxK_none x (s := { s with pc := s.pc + 2 }) hnone, BitVec.add_sub_cancel s.pc 2⟩⟩

/-- The last tick of a period decrements DT (R126). -/
theorem toNat_tick_dt {s : State} (h : s.stepCount + 1 = s.config.timerPeriod) :
    (tick s).dt.toNat = s.dt.toNat - 1 := by
  rw [tick_dt, if_pos h, toNat_decrement]

/-- Settles O48: the body comes before the tick, which decrements the timer the body left. -/
theorem delayTimerReadAndSet : Obligations.DelayTimerReadAndSet := by
  intro x s
  refine ⟨⟨decodeWord_encode (.ldVxDt x), _, rfl, getV_setV_same s x _, keepsRest_setV s x _⟩,
    ⟨decodeWord_encode (.ldDtVx x), _, rfl, rfl, keepsRest_setDt s _⟩, fun hr hlast => ?_⟩
  exact ⟨⟨_, handOff_ok hr, getV_setV_same s x _, toNat_tick_dt (s := handFrame (s.setV x s.dt)) hlast⟩,
    ⟨_, handOff_ok hr, toNat_tick_dt (s := handFrame { s with dt := s.getV x }) hlast⟩⟩

/-- Settles O49: the body replaces ST by V[x]. -/
theorem soundTimerSet : Obligations.SoundTimerSet := fun _ s => ⟨_, rfl, rfl, keepsRest_setSt s _⟩

end Sys2Proof.Machine
end
